-- ==== Sys2Proof/Word.lean ====
section
/-! DEFINITION. The word types of the BRE (R6): a framebuffer byte, a command word, an output register. -/

namespace Sys2Proof

/-- A framebuffer byte, 0..255 (R6, R21). -/
abbrev Byte := BitVec 8

/-- A command word: every command is exactly one of these (R60). -/
abbrev CommandWord := BitVec 64

/-- The value of an output register (R22 to R25). -/
abbrev RegWord := BitVec 32

end Sys2Proof
end

