-- ==== Sys2Proof/Syntax.lean ====
section
/-! DEFINITION. The nine commands with their operands as decoded (R62, R63). -/

namespace Sys2Proof

/-- One constructor per row of the opcode map (R63). Operands are the fields of R62: unsigned fields keep
their width, and the signed step count of format S is the integer it denotes. -/
inductive Instr where
  /-- R90: every framebuffer byte to 0. -/
  | clear
  /-- R91: set (`pen`) or clear pixel (x, y). -/
  | setpx (x y : BitVec 16) (pen : Bool)
  /-- R92: the translation of (x, y) into RESULT. -/
  | xlate (x y : BitVec 16)
  /-- R93: the byte at index `i` into RESULT. -/
  | readb (i : BitVec 16)
  /-- R94: `v` to the byte at index `i`. -/
  | writeb (i : BitVec 16) (v : Byte)
  /-- R83: rotate the row (base, stride, len) right by `steps` bits. -/
  | rotr (base stride len : BitVec 16) (steps : BitVec 3)
  /-- R84: rotate the row (base, stride, len) left by `steps` bits. -/
  | rotl (base stride len : BitVec 16) (steps : BitVec 3)
  /-- R111: scroll by `n` pixel rows. -/
  | vscroll (n : Int)
  /-- R112: scroll by `n` columns. -/
  | hscroll (n : Int)
  deriving DecidableEq, Repr

end Sys2Proof
end

