-- ==== Sys2Proof/WellFormed.lean ====
section
/-! DEFINITION. Which commands have a word: the operand ranges of R62 and R69. -/

namespace Sys2Proof

/-- The range of the step count of format S: -32768..32767 (R62, R69). -/
abbrev StepCountFits (n : Int) : Prop := -32768 ≤ n ∧ n ≤ 32767

/-- A command is well-formed when every operand is in its range (R69). The unsigned operands are in range by
their types; the scroll counts are integers and are checked. -/
def Instr.wellFormed : Instr → Bool
  | .clear          => true
  | .setpx _ _ _    => true
  | .xlate _ _      => true
  | .readb _        => true
  | .writeb _ _     => true
  | .rotr _ _ _ _   => true
  | .rotl _ _ _ _   => true
  | .vscroll n      => decide (StepCountFits n)
  | .hscroll n      => decide (StepCountFits n)

end Sys2Proof
end

