-- ==== Sys2Proof/Decode.lean ====
section
/-! DEFINITION. The command word's fields (R61), the opcode map (R63), the total decoder (R67) with its rejections by
name (R64, R65), the encoder written from the same tables, the byte order of a byte-wide link (R71), and the host's
entry point decodeTableWord. -/

namespace Sys2Proof

/-! ### Fields (R61) -/

/-- OP = w[63:56]. -/
def opField (w : CommandWord) : BitVec 8 := w.extractLsb' 56 8

/-- A16 = w[55:40]. -/
def a16Field (w : CommandWord) : BitVec 16 := w.extractLsb' 40 16

/-- B16 = w[39:24]. -/
def b16Field (w : CommandWord) : BitVec 16 := w.extractLsb' 24 16

/-- C16 = w[23:8]. -/
def c16Field (w : CommandWord) : BitVec 16 := w.extractLsb' 8 16

/-- D8 = w[7:0]. -/
def d8Field (w : CommandWord) : BitVec 8 := w.extractLsb' 0 8

/-- The word with the given fields: {OP, A16, B16, C16, D8} (R61). -/
def packWord (op : BitVec 8) (a b c : BitVec 16) (d : BitVec 8) : CommandWord :=
  op ++ a ++ b ++ c ++ d

/-! ### The opcode map (R63) -/

/-- A row of R63: the word `w` encodes the command when `w &&& mask = pattern` (R63 calls the pattern "match");
`operands` then assembles the command's operands from the fields (R62). -/
structure OpcodeRow where
  mask     : CommandWord
  pattern  : CommandWord
  operands : CommandWord → Instr

/-- The nine rows of R63, in the table's order, with the operands of R62. -/
def opcodeRows : List OpcodeRow :=
  [ ⟨0xFFFFFFFFFFFFFFFF, 0x0100000000000000, fun _ => .clear⟩,
    ⟨0xFF00000000FFFFFE, 0x0200000000000000, fun w => .setpx (a16Field w) (b16Field w) ((d8Field w).getLsbD 0)⟩,
    ⟨0xFF00000000FFFFFF, 0x0300000000000000, fun w => .xlate (a16Field w) (b16Field w)⟩,
    ⟨0xFF0000FFFFFFFFFF, 0x0400000000000000, fun w => .readb (a16Field w)⟩,
    ⟨0xFF0000FFFFFFFF00, 0x0500000000000000, fun w => .writeb (a16Field w) (d8Field w)⟩,
    ⟨0xFF000000000000F8, 0x0600000000000000,
      fun w => .rotr (a16Field w) (b16Field w) (c16Field w) ((d8Field w).extractLsb' 0 3)⟩,
    ⟨0xFF000000000000F8, 0x0700000000000000,
      fun w => .rotl (a16Field w) (b16Field w) (c16Field w) ((d8Field w).extractLsb' 0 3)⟩,
    ⟨0xFF0000FFFFFFFFFF, 0x0800000000000000, fun w => .vscroll (a16Field w).toInt⟩,
    ⟨0xFF0000FFFFFFFFFF, 0x0900000000000000, fun w => .hscroll (a16Field w).toInt⟩ ]

/-- Whether `w` encodes the command of row `r` (R63). -/
def OpcodeRow.encodes (r : OpcodeRow) (w : CommandWord) : Bool := w &&& r.mask == r.pattern

/-! ### The decoder (R67) -/

/-- Why bytes are no command. -/
inductive DecodeError where
  /-- OP is 0x00 or lies in 0x0A..0xFF (R65). -/
  | unassignedOpcode
  /-- OP is assigned and a reserved bit is set (R64). -/
  | reservedBits
  /-- A byte-wide link delivered fewer than the 8 bytes of a word (R71). -/
  | truncated
  deriving DecidableEq, Repr

/-- Decode (R67): the first row that matches gives the command; a word that matches none is ILLEGAL, and the
answer names which of R64 and R65 makes it so. -/
def decode (w : CommandWord) : Except DecodeError Instr :=
  match opcodeRows.find? (fun r => r.encodes w) with
  | some r => .ok (r.operands w)
  | none =>
    if 1 ≤ (opField w).toNat ∧ (opField w).toNat ≤ 9 then .error .reservedBits
    else .error .unassignedOpcode

/-! ### The encoder (R62, R63) -/

/-- The OP of a command (R63). -/
def opcodeOf : Instr → BitVec 8
  | .clear        => 0x01
  | .setpx _ _ _  => 0x02
  | .xlate _ _    => 0x03
  | .readb _      => 0x04
  | .writeb _ _   => 0x05
  | .rotr _ _ _ _ => 0x06
  | .rotl _ _ _ _ => 0x07
  | .vscroll _    => 0x08
  | .hscroll _    => 0x09

/-- The word of a command: its OP and the fields of its format (R62), reserved fields zero (R64). -/
def encode (i : Instr) : CommandWord :=
  match i with
  | .clear                      => packWord (opcodeOf i) 0 0 0 0
  | .setpx x y pen              => packWord (opcodeOf i) x y 0 (0#7 ++ BitVec.ofBool pen)
  | .xlate x y                  => packWord (opcodeOf i) x y 0 0
  | .readb idx                  => packWord (opcodeOf i) idx 0 0 0
  | .writeb idx v               => packWord (opcodeOf i) idx 0 0 v
  | .rotr base stride len steps => packWord (opcodeOf i) base stride len (0#5 ++ steps)
  | .rotl base stride len steps => packWord (opcodeOf i) base stride len (0#5 ++ steps)
  | .vscroll n                  => packWord (opcodeOf i) (BitVec.ofInt 16 n) 0 0 0
  | .hscroll n                  => packWord (opcodeOf i) (BitVec.ofInt 16 n) 0 0 0

/-! ### A byte-wide link (R71) -/

/-- The 8 bytes of a word in the order a byte-wide link carries them: w[63:56] first, w[7:0] last (R71). -/
def linkBytes (w : CommandWord) : List Byte :=
  [w.extractLsb' 56 8, w.extractLsb' 48 8, w.extractLsb' 40 8, w.extractLsb' 32 8,
   w.extractLsb' 24 8, w.extractLsb' 16 8, w.extractLsb' 8 8, w.extractLsb' 0 8]

/-- The next word on a byte-wide link and the bytes after it, if 8 bytes are there (R71). -/
def wordOfLink : List Byte → Option (CommandWord × List Byte)
  | b7 :: b6 :: b5 :: b4 :: b3 :: b2 :: b1 :: b0 :: rest =>
      some (b7 ++ b6 ++ b5 ++ b4 ++ b3 ++ b2 ++ b1 ++ b0, rest)
  | _ => none

/-- The next command on a byte-wide link and the bytes after it (R71, R67). -/
def decodeBytes (bytes : List Byte) : Except DecodeError (Instr × List Byte) :=
  match wordOfLink bytes with
  | none => .error .truncated
  | some (w, rest) =>
    match decode w with
    | .ok i => .ok (i, rest)
    | .error e => .error e

/-! ### The host's entry point -/

/-- The command word whose low `nbits` bits are those of `w` and whose other bits are 0. -/
def tableWord (nbits w : Nat) : CommandWord := BitVec.ofNat 64 (w % 2 ^ nbits)

/-- What the decoder reads from an opcode-table word. -/
def decodeTableWord (nbits w : Nat) : Option Instr :=
  match decode (tableWord nbits w) with
  | .ok i => some i
  | .error _ => none

end Sys2Proof
end

