-- ==== Sys2Proof/Config.lean ====
section
/-! DEFINITION. The instantiation parameters of the BRE (R5) and the quantities derived from them.
The open host-side parameter MONO is not here: it is an argument of the DRAWIMG expansion (Machine/HostSequences.lean). -/

namespace Sys2Proof

/-- BOUNDARY_MODE (R5): which range check the address translator makes (R43, R44). -/
inductive BoundaryMode where
  | strict
  | legacyInclusive
  deriving DecidableEq, Repr

/-- HSCROLL_SENSE (R5): which way a positive HSCROLL moves bytes (R112). -/
inductive HscrollSense where
  | frontToBack
  | backToFront
  deriving DecidableEq, Repr

/-- The parameters of one instance (R5), fixed for its life. -/
structure Params where
  pages        : Nat
  columns      : Nat
  boundaryMode : BoundaryMode
  hscrollSense : HscrollSense
  deriving DecidableEq, Repr

/-- The legal values of R5: both dimensions lie in 1..256. -/
abbrev Params.legal (p : Params) : Prop :=
  1 ≤ p.pages ∧ p.pages ≤ 256 ∧ 1 ≤ p.columns ∧ p.columns ≤ 256

/-- WIDTH = COLUMNS (R5). -/
abbrev Params.width (p : Params) : Nat := p.columns

/-- HEIGHT = 8 * PAGES (R5). -/
abbrev Params.height (p : Params) : Nat := 8 * p.pages

/-- SIZE = PAGES * COLUMNS, the number of framebuffer bytes (R5). -/
abbrev Params.size (p : Params) : Nat := p.pages * p.columns

/-- The ST7565 panel instance: the values of R5's third column. -/
def Params.panel : Params :=
  { pages := 8, columns := 128, boundaryMode := .strict, hscrollSense := .frontToBack }

end Sys2Proof
end

