-- ==== Sys2Proof/Machine/State.lean ====
section
/-! DEFINITION. The state of the BRE (R21 to R31), the host's side of its interface (R29), the error codes' names
(R140), the reset state (R31), and the reasons a step could stop. -/

namespace Sys2Proof.Machine

/-- The framebuffer FB (R21): its non-zero bytes by index. A byte not listed reads as 0, the reset contents of R31.
The canonical form is `Memory.wf` (Machine/Ops.lean). -/
abbrev Memory := List Host.Cell

/-- The errors a command can report (R140); the numeric code is `ErrCode.code` (Machine/Flags.lean). -/
inductive ErrCode where
  /-- E_ILLEGAL: unassigned OP, or a reserved bit set. -/
  | illegal
  /-- E_RANGE: a coordinate, an index or a row outside the buffer. -/
  | range
  /-- E_ARG: a rotation argument outside its legal set. -/
  | arg
  /-- E_INDEX: a coordinate the inclusive check accepts whose index is outside the buffer. -/
  | index
  deriving DecidableEq, Repr

/-- STATUS (R23) without its reserved bits, which are hard-wired 0 and supplied when the register is read. -/
structure Status where
  /-- STATUS[3:0], LAST_ERR. -/
  lastErr : BitVec 4
  /-- STATUS[4], ANY_ERR. -/
  anyErr  : Bool
  deriving DecidableEq, Repr

/-- The host's transactions (R29). -/
inductive Transaction where
  /-- `Issue(w)`: execute the command word `w`. -/
  | issue (w : CommandWord)
  /-- `Read(sel)`: return an output register. -/
  | read (sel : BitVec 2)
  /-- `Reset`. -/
  | reset
  deriving DecidableEq, Repr

/-- The BRE and the host's side of its interface. `fb`, `result` and `status` are the state of R28. `params` are the
instance parameters of R5, constant (log entry 1). `pending` and `replies` are the host's: the transactions it has
lined up, oldest first, and the values its Reads have returned, in order (R29, R167; log entry 2). -/
structure State where
  params  : Params
  fb      : Memory
  result  : RegWord
  status  : Status
  pending : List Transaction
  replies : List RegWord
  deriving DecidableEq, Repr

/-- Why the machine stops with a fault: nothing does. Every error of R140 is a status outcome after which "the engine
is idle and accepts the next command" (R142), so there is no constructor (log entry 13; safe). -/
inductive Fault where
  deriving DecidableEq, Repr

/-- Why a step has no meaning. -/
inductive Refusal where
  /-- Raised by an arm of `exec` whose command has no meaning yet. Safe: nothing is claimed of it. No arm raises it. -/
  | notModelled (mnemonic : String)
  deriving DecidableEq, Repr

/-- The outcome of executing a command or of one step. -/
abbrev Outcome := Host.Outcome State Fault Refusal

/-! ### Updates, one per field that changes -/

def State.withFb (s : State) (m : Memory) : State := { s with fb := m }

def State.withResult (s : State) (r : RegWord) : State := { s with result := r }

def State.withStatus (s : State) (st : Status) : State := { s with status := st }

def State.withPending (s : State) (ts : List Transaction) : State := { s with pending := ts }

def State.withReplies (s : State) (rs : List RegWord) : State := { s with replies := rs }

/-! ### Reset -/

/-- The state after reset of the instance with parameters `p` (R31, R160): FB, RESULT, LAST_ERR and ANY_ERR are 0.
The host has lined up nothing and has read nothing (log entry 2). -/
def State.resetOf (p : Params) : State :=
  { params := p, fb := [], result := 0, status := { lastErr := 0, anyErr := false }, pending := [], replies := [] }

/-- The state after reset of the ST7565 panel instance (R5's values; log entry 1). -/
def State.reset : State := State.resetOf Params.panel

end Sys2Proof.Machine
end

