-- ==== Sys2Proof/Machine/Flags.lean ====
section
/-! DEFINITION. STATUS: the numeric error codes (R140), the two ways a command leaves STATUS (R142, R143), and the
register's layout (R23). -/

namespace Sys2Proof.Machine

/-- The numeric error codes (R140). -/
def ErrCode.code : ErrCode → BitVec 4
  | .illegal => 1
  | .range   => 2
  | .arg     => 3
  | .index   => 4

/-- STATUS after a failed command (R142): LAST_ERR is the code and ANY_ERR is 1. -/
def Status.failed (e : ErrCode) : Status := { lastErr := e.code, anyErr := true }

/-- STATUS after a successful command (R143): LAST_ERR is 0 and ANY_ERR is unchanged. -/
def Status.succeeded (st : Status) : Status := { st with lastErr := 0 }

/-- The STATUS register (R23): reserved bits 31:5 are 0, bit 4 is ANY_ERR, bits 3:0 are LAST_ERR. -/
def Status.word (st : Status) : RegWord := 0#27 ++ BitVec.ofBool st.anyErr ++ st.lastErr

end Sys2Proof.Machine
end

