-- ==== Sys2Proof/Machine/Ops.lean ====
section
/-! DEFINITION. The shared operations: the framebuffer's bytes (R8, R40), the end of a command with and without error
(R142, R143), the output registers (R22 to R26), and reset (R160). The BRE has no trap entry and no trap return (R145,
R146): `raiseError` is all that an error does. -/

namespace Sys2Proof.Machine

/-! ### The framebuffer -/

/-- MemRead(i, 1): the byte at index `i` (R8). -/
def Memory.read : Memory → Nat → Byte
  | [], _ => 0
  | (a, b) :: rest, i => if a = i then b else Memory.read rest i

/-- `m` with the byte `v` listed at index `i`, in rising order. -/
def Memory.insert : Memory → Nat → Byte → Memory
  | [], i, v => [(i, v)]
  | (a, b) :: rest, i, v =>
    if i < a then (i, v) :: (a, b) :: rest
    else if i = a then (i, v) :: rest
    else (a, b) :: Memory.insert rest i v

/-- `m` with no byte listed at index `i`. -/
def Memory.erase (m : Memory) (i : Nat) : Memory := m.filter (fun c => c.1 != i)

/-- MemWrite(i, 1, v): FB[i] becomes `v` (R8). A byte that becomes 0 is no longer listed. -/
def Memory.write (m : Memory) (i : Nat) (v : Byte) : Memory :=
  if v = 0 then Memory.erase m i else Memory.insert m i v

/-- FB with every byte 0 (R31, R90). -/
def Memory.zero : Memory := []

/-- The canonical form: indexes strictly rising, and no listed byte equal to 0, what an unlisted one reads as. -/
abbrev Memory.wf (m : Memory) : Prop :=
  m.Pairwise (fun c d => c.1 < d.1) ∧ ∀ c ∈ m, c.2 ≠ 0

/-- Every listed index is one of the `size` indexes of FB (R21, R52). -/
abbrev Memory.inMap (size : Nat) (m : Memory) : Prop := ∀ c ∈ m, c.1 < size

/-! ### The end of a command -/

/-- `raise Error(e)` (R142): LAST_ERR and ANY_ERR are written and nothing else changes; the engine goes on. -/
def raiseError (e : ErrCode) (s : State) : Outcome := .next (s.withStatus (Status.failed e))

/-- The end of a command that raised nothing (R143), in the state that holds its FB and RESULT effects. -/
def complete (s : State) : Outcome := .next (s.withStatus s.status.succeeded)

/-! ### The output registers -/

/-- GEOMETRY (R24): COLUMNS in bits 31:16, PAGES in bits 15:0. -/
def geometryWord (p : Params) : RegWord := BitVec.ofNat 16 p.columns ++ BitVec.ofNat 16 p.pages

/-- CONFIG[0] (R25): 0 = STRICT, 1 = LEGACY_INCLUSIVE. -/
def boundaryModeBit : BoundaryMode → BitVec 1
  | .strict          => 0
  | .legacyInclusive => 1

/-- CONFIG[1] (R25): 0 = FRONT_TO_BACK, 1 = BACK_TO_FRONT. -/
def hscrollSenseBit : HscrollSense → BitVec 1
  | .frontToBack => 0
  | .backToFront => 1

/-- CONFIG (R25): bits 31:2 are 0. -/
def configWord (p : Params) : RegWord :=
  0#30 ++ hscrollSenseBit p.hscrollSense ++ boundaryModeBit p.boundaryMode

/-- The register the host reads with select `sel` (R26): 0 RESULT, 1 STATUS, 2 GEOMETRY, 3 CONFIG. -/
def readRegister (sel : BitVec 2) (s : State) : RegWord :=
  if sel = 0 then s.result
  else if sel = 1 then s.status.word
  else if sel = 2 then geometryWord s.params
  else configWord s.params

/-! ### Reset -/

/-- What Reset does to the BRE (R160): FB, RESULT and STATUS take the values of R31. The parameters do not change, and
neither does the host's side: the transactions it has yet to perform and the values it has read (log entry 4). -/
def resetEngine (s : State) : State :=
  ((s.withFb Memory.zero).withResult 0).withStatus { lastErr := 0, anyErr := false }

end Sys2Proof.Machine
end

