-- ==== Sys2Proof/Machine/Operands.lean ====
section
/-! DEFINITION. The operand forms that name framebuffer bytes: a pixel coordinate through the address translator (R43,
R44), a direct index (R52), and a row descriptor (R45 to R47). -/

namespace Sys2Proof.Machine

/-! ### Pixel coordinates -/

/-- The buffer index of pixel (x, y), `(y div 8) * COLUMNS + x` (R43). -/
abbrev pixelIndex (p : Params) (x y : Nat) : Nat := y / 8 * p.columns + x

/-- The bit position of pixel (x, y) in its byte, `7 - (y mod 8)` (R43). -/
abbrev pixelBit (y : Nat) : Nat := 7 - y % 8

/-- Pixel (x, y) of the framebuffer: its bit of its byte (R41, R42). -/
def Memory.pixel (p : Params) (m : Memory) (x y : Nat) : Bool :=
  (Memory.read m (pixelIndex p x y)).getLsbD (pixelBit y)

/-- Translate(x, y) (R43 in STRICT mode, R44 in LEGACY_INCLUSIVE mode): the index and bit, or the error. -/
def translatePixel (p : Params) (x y : Nat) : Except ErrCode (Nat × Nat) :=
  match p.boundaryMode with
  | .strict =>
    if x ≥ p.width ∨ y ≥ p.height then .error .range
    else .ok (pixelIndex p x y, pixelBit y)
  | .legacyInclusive =>
    if x > p.width ∨ y > p.height then .error .range
    else if pixelIndex p x y ≥ p.size then .error .index
    else .ok (pixelIndex p x y, pixelBit y)

/-- RESULT of XLATE (R92): the index in bits 15:0, the bit position in bits 18:16, 0 above. -/
def translationWord (idx bit : Nat) : RegWord :=
  (BitVec.ofNat 3 bit ++ BitVec.ofNat 16 idx).setWidth 32

/-- `b` with bit `bit` set (`pen`) or cleared (R91). -/
def penByte (b : Byte) (bit : Nat) (pen : Bool) : Byte :=
  if pen then b ||| (1#8 <<< bit) else b &&& (0xFF#8 ^^^ (1#8 <<< bit))

/-! ### Rows -/

/-- A row descriptor (base, stride, len) (R47). -/
structure RowDesc where
  base   : Nat
  stride : Nat
  len    : Nat
  deriving DecidableEq, Repr

/-- The index of the row's byte `k` (R47). -/
def RowDesc.index (d : RowDesc) (k : Nat) : Nat := d.base + k * d.stride

/-- A valid descriptor (R47) of an instance. -/
abbrev RowDesc.valid (p : Params) (d : RowDesc) : Prop :=
  1 ≤ d.len ∧ (2 ≤ d.len → 1 ≤ d.stride) ∧ d.base + (d.len - 1) * d.stride < p.size

/-- The column strip of column `c` (R45). -/
def columnStrip (p : Params) (c : Nat) : RowDesc := { base := c, stride := p.columns, len := p.pages }

/-- The page slice of page `g` (R46). -/
def pageSlice (p : Params) (g : Nat) : RowDesc := { base := g * p.columns, stride := 1, len := p.columns }

/-- The bytes of a row, in its order (R47). -/
def readRow (d : RowDesc) (m : Memory) : List Byte :=
  (List.range d.len).map (fun k => Memory.read m (d.index k))

/-- `m` after `row` is written to the indexes `i, i + stride, …`. -/
def writeBytes (stride : Nat) : Nat → List Byte → Memory → Memory
  | _, [], m => m
  | i, b :: row, m => writeBytes stride (i + stride) row (Memory.write m i b)

/-- `m` after the bytes of the row `d` are replaced by `row` (R83's last line). -/
def writeRow (d : RowDesc) (row : List Byte) (m : Memory) : Memory := writeBytes d.stride d.base row m

/-- `m` after the row `d` is replaced by `f` of it: the whole row is read before any byte is written (R50). -/
def updateRow (f : List Byte → List Byte) (d : RowDesc) (m : Memory) : Memory := writeRow d (f (readRow d m)) m

/-- The first error of a rotation's arguments and range, in the order of R83 and R141. -/
def rotationError (p : Params) (d : RowDesc) (steps : Nat) : Option ErrCode :=
  if steps = 0 then some .arg
  else if d.len = 0 then some .arg
  else if d.len ≥ 2 ∧ d.stride = 0 then some .arg
  else if d.base + (d.len - 1) * d.stride ≥ p.size then some .range
  else none

end Sys2Proof.Machine
end

