-- ==== Sys2Proof/Machine/Framebuffer.lean ====
section
/-! DEFINITION. The commands CLEAR, SETPX, XLATE, READB and WRITEB (R90 to R94). -/

namespace Sys2Proof.Machine

/-- CLEAR (R90). -/
def execClear (s : State) : Outcome := complete (s.withFb Memory.zero)

/-- SETPX (R91). -/
def execSetpx (x y : BitVec 16) (pen : Bool) (s : State) : Outcome :=
  match translatePixel s.params x.toNat y.toNat with
  | .error e => raiseError e s
  | .ok (idx, bit) => complete (s.withFb (Memory.write s.fb idx (penByte (Memory.read s.fb idx) bit pen)))

/-- XLATE (R92). -/
def execXlate (x y : BitVec 16) (s : State) : Outcome :=
  match translatePixel s.params x.toNat y.toNat with
  | .error e => raiseError e s
  | .ok (idx, bit) => complete (s.withResult (translationWord idx bit))

/-- READB (R93). -/
def execReadb (i : BitVec 16) (s : State) : Outcome :=
  if i.toNat ≥ s.params.size then raiseError .range s
  else complete (s.withResult ((Memory.read s.fb i.toNat).setWidth 32))

/-- WRITEB (R94). -/
def execWriteb (i : BitVec 16) (v : Byte) (s : State) : Outcome :=
  if i.toNat ≥ s.params.size then raiseError .range s
  else complete (s.withFb (Memory.write s.fb i.toNat v))

end Sys2Proof.Machine
end

