-- ==== Sys2Proof/Machine/Rotation.lean ====
section
/-! DEFINITION. The rotation unit: the ring of a row (R80), RotR and RotL with the procedural forms the spec gives for
them (R81, R82), and the commands ROTR and ROTL (R83, R84). -/

namespace Sys2Proof.Machine

/-- Ring bit `j` of a row: bit `7 - (j mod 8)` of its byte `j div 8` (R80). -/
def ringBit (r : List Byte) (j : Nat) : Bool := (r.getD (j / 8) 0).getLsbD (7 - j % 8)

/-- RotR(r, s) (R81), byte by byte: `r'[k] = (r[k] >> s) | (r[(k-1) mod N] << (8-s))`. -/
def rotR (r : List Byte) (s : Nat) : List Byte :=
  (List.range r.length).map fun k =>
    (r.getD k 0 >>> s) ||| (r.getD ((k + (r.length - 1)) % r.length) 0 <<< (8 - s))

/-- RotL(r, s) (R82), byte by byte: `r'[k] = (r[k] << s) | (r[(k+1) mod N] >> (8-s))`. -/
def rotL (r : List Byte) (s : Nat) : List Byte :=
  (List.range r.length).map fun k =>
    (r.getD k 0 <<< s) ||| (r.getD ((k + 1) % r.length) 0 >>> (8 - s))

/-- The loop of R81's procedural form: bytes left to right, `lost` carried into the top of the next byte. Answers the
new bytes and the last `lost`. -/
def rotRLoop (s : Nat) : Byte → List Byte → List Byte × Byte
  | lost, [] => ([], lost)
  | lost, b :: rest =>
    let out := rotRLoop s (b &&& BitVec.ofNat 8 (2 ^ s - 1)) rest
    (((b >>> s) ||| (lost <<< (8 - s))) :: out.1, out.2)

/-- R81's procedural form: the loop, then the last `lost` into the top of byte 0. -/
def rotRProcedural (r : List Byte) (s : Nat) : List Byte :=
  match rotRLoop s 0 r with
  | ([], _) => []
  | (b :: rest, lost) => (b ||| (lost <<< (8 - s))) :: rest

/-- The loop of R82's procedural form: bytes from the last to the first, the high bits carried into the low end of the
byte before. Answers the new bytes and the last `lost`. -/
def rotLLoop (s : Nat) : List Byte → List Byte × Byte
  | [] => ([], 0)
  | b :: rest =>
    let out := rotLLoop s rest
    (((b <<< s) ||| out.2) :: out.1, (b &&& BitVec.ofNat 8 ((2 ^ s - 1) * 2 ^ (8 - s))) >>> (8 - s))

/-- R82's procedural form: the loop, then the last `lost` into the low end of byte N-1. -/
def rotLProcedural (r : List Byte) (s : Nat) : List Byte :=
  let out := rotLLoop s r
  out.1.modify (r.length - 1) (fun b => b ||| out.2)

/-- A rotation command (R83, R84): the checks of R141 in order, then the row `d` replaced by `rot` of it. -/
def rotateRow (rot : List Byte → Nat → List Byte) (d : RowDesc) (steps : Nat) (s : State) : Outcome :=
  match rotationError s.params d steps with
  | some e => raiseError e s
  | none => complete (s.withFb (updateRow (fun row => rot row steps) d s.fb))

/-- ROTR (R83). -/
def execRotr (base stride len : BitVec 16) (steps : BitVec 3) (s : State) : Outcome :=
  rotateRow rotR { base := base.toNat, stride := stride.toNat, len := len.toNat } steps.toNat s

/-- ROTL (R84). -/
def execRotl (base stride len : BitVec 16) (steps : BitVec 3) (s : State) : Outcome :=
  rotateRow rotL { base := base.toNat, stride := stride.toNat, len := len.toNat } steps.toNat s

end Sys2Proof.Machine
end

