-- ==== Sys2Proof/Machine/Scroll.lean ====
section
/-! DEFINITION. The scroll controller: RingRot (R110), VSCROLL (R111) and HSCROLL (R112). -/

namespace Sys2Proof.Machine

/-- A row's bytes moved `q` places toward higher index, circularly: `r'[p] = r[(p - q) mod N]` (R110's r1). -/
def moveBytes (r : List Byte) (q : Int) : List Byte :=
  (List.range r.length).map fun (p : Nat) => r.getD (((p : Int) - q) % (r.length : Int)).toNat 0

/-- RingRot(r, n) (R110): the ring moved `n` places toward higher ring index, as a whole-byte move and then a rotation
by the remaining bits. -/
def ringRot (r : List Byte) (n : Int) : List Byte :=
  let k := (n % (8 * (r.length : Int))).toNat
  let r1 := moveBytes r (k / 8 : Nat)
  if k % 8 = 0 then r1 else rotR r1 (k % 8)

/-- The framebuffer after VSCROLL (R111): RingRot of every column strip by `n`. -/
def vscrollFb (p : Params) (n : Int) (m : Memory) : Memory :=
  (List.range p.columns).foldl (fun m c => updateRow (fun strip => ringRot strip n) (columnStrip p c) m) m

/-- A page slice after HSCROLL (R112), with `k = n mod COLUMNS`: FRONT_TO_BACK takes byte `(c + k) mod COLUMNS` to
place `c`, BACK_TO_FRONT byte `(c - k) mod COLUMNS`. -/
def hscrollSlice (sense : HscrollSense) (k : Int) (slice : List Byte) : List Byte :=
  match sense with
  | .frontToBack => moveBytes slice (-k)
  | .backToFront => moveBytes slice k

/-- The framebuffer after HSCROLL (R112): every page slice moved by `n mod COLUMNS` bytes. -/
def hscrollFb (p : Params) (n : Int) (m : Memory) : Memory :=
  (List.range p.pages).foldl
    (fun m g => updateRow (hscrollSlice p.hscrollSense (n % (p.columns : Int))) (pageSlice p g) m) m

/-- VSCROLL (R111). -/
def execVscroll (n : Int) (s : State) : Outcome := complete (s.withFb (vscrollFb s.params n s.fb))

/-- HSCROLL (R112). -/
def execHscroll (n : Int) (s : State) : Outcome := complete (s.withFb (hscrollFb s.params n s.fb))

end Sys2Proof.Machine
end

