-- ==== Sys2Proof/Machine/Dispatch.lean ====
section
/-! DEFINITION. The meaning of each command, one arm per constructor. -/

namespace Sys2Proof.Machine

/-- The effect of a decoded command (R67: "otherwise execute the command's rule"). -/
def exec (i : Instr) (s : State) : Host.Outcome State Fault Refusal :=
  match i with
  | .clear => Sys2Proof.Machine.execClear s
  | .setpx x y pen => Sys2Proof.Machine.execSetpx x y pen s
  | .xlate x y => Sys2Proof.Machine.execXlate x y s
  | .readb idx => Sys2Proof.Machine.execReadb idx s
  | .writeb idx v => Sys2Proof.Machine.execWriteb idx v s
  | .rotr base stride len steps => Sys2Proof.Machine.execRotr base stride len steps s
  | .rotl base stride len steps => Sys2Proof.Machine.execRotl base stride len steps s
  | .vscroll n => Sys2Proof.Machine.execVscroll n s
  | .hscroll n => Sys2Proof.Machine.execHscroll n s

end Sys2Proof.Machine
end

