-- ==== Sys2Proof/Machine/HostPort.lean ====
section
/-! DEFINITION. The host's transactions (R29): Issue, Read and Reset, each one atomic step (R30, R50). -/

namespace Sys2Proof.Machine

/-- `Issue(w)` (R67): an illegal word raises E_ILLEGAL before any other check; any other is executed to completion. -/
def issue (w : CommandWord) (s : State) : Outcome :=
  match decode w with
  | .ok i => exec i s
  | .error _ => raiseError .illegal s

/-- `Read(sel)` (R26, R29): the host gets the register's value and nothing in the BRE changes. -/
def hostRead (sel : BitVec 2) (s : State) : Outcome :=
  .next (s.withReplies (s.replies ++ [readRegister sel s]))

/-- One transaction (R29). -/
def transact (t : Transaction) (s : State) : Outcome :=
  match t with
  | .issue w => issue w s
  | .read sel => hostRead sel s
  | .reset => .next (resetEngine s)

end Sys2Proof.Machine
end

