-- ==== Sys2Proof/Machine/Step.lean ====
section
/-! DEFINITION. One step of the machine: the next transaction the host has lined up (R29, R55). -/

namespace Sys2Proof.Machine

/-- The step: the oldest pending transaction is taken from the queue and performed to completion (R30, R55). With none
pending the engine is idle and nothing changes (log entry 2). -/
def step (s : State) : Host.Outcome State Fault Refusal :=
  match s.pending with
  | [] => .next s
  | t :: rest => transact t (s.withPending rest)

/-- `s` with the opcode-table word `w` as the host's next transaction, `Issue(w)` (log entry 5). -/
def State.withFetchWord (s : State) (nbits w : Nat) : State :=
  s.withPending (.issue (tableWord nbits w) :: s.pending)

end Sys2Proof.Machine
end

