-- ==== Sys2Proof/Machine/HostSequences.lean ====
section
/-! DEFINITION. The host-side pseudo-instructions (R70, R120 to R127): the commands each one expands into, and how the
host issues them and stops at the first error (R120). The engine never sees them; `step` does not use this file. -/

namespace Sys2Proof.Machine

/-! ### What the host issues -/

/-- An image on the host's side (R124): its dimensions and its samples in row-major order (log entry 9). -/
structure Image where
  width   : Nat
  height  : Nat
  samples : List Nat
  deriving DecidableEq, Repr

/-- An image holds one sample per pixel. -/
abbrev Image.wf (img : Image) : Prop := img.samples.length = img.width * img.height

/-- The sample of pixel (i, j) (R124). -/
def Image.sample (img : Image) (i j : Nat) : Nat := img.samples.getD (j * img.width + i) 0

/-- The pseudo-instructions with their operands and the defaults the rules give these (R121 to R127). -/
inductive Pseudo where
  | hline (x y length : Nat) (pen : Bool := true)
  | vline (x y length : Nat) (pen : Bool := true)
  | box (x1 y1 x2 y2 : Nat) (pen : Bool := true)
  | drawimg (image : Image) (tx : Nat := 0) (ty : Nat := 0) (centerX : Bool := false) (centerY : Bool := false)
  | dump (unset : Char := '.') (set : Char := '#')
  | stripr (c : Nat) (steps : BitVec 3)
  | stripl (c : Nat) (steps : BitVec 3)
  | pager (p : Nat) (steps : BitVec 3)
  | pagel (p : Nat) (steps : BitVec 3)
  deriving DecidableEq, Repr

/-- One step of an expansion (R120). -/
inductive HostAction where
  /-- Issue this command. -/
  | command (i : Instr)
  /-- An operand does not fit its 16-bit field: E_RANGE at this point, and no command is issued. -/
  | unfit
  deriving DecidableEq, Repr

/-- How a pseudo-instruction fails. -/
inductive HostError where
  /-- A command of the expansion failed, or did not fit, with this error code (R120). -/
  | engine (code : BitVec 4)
  /-- IMAGE_TOO_LARGE (R124): a host-side error that never reaches STATUS. -/
  | imageTooLarge
  deriving DecidableEq, Repr

/-! ### Expansions -/

/-- SETPX of a pixel whose coordinates are naturals (R120). -/
def setpxAction (pen : Bool) (x y : Nat) : HostAction :=
  if x < 2 ^ 16 ∧ y < 2 ^ 16 then .command (.setpx (BitVec.ofNat 16 x) (BitVec.ofNat 16 y) pen) else .unfit

/-- R121: pixels to the right from (x, y). -/
def hlineActions (x y length : Nat) (pen : Bool) : List HostAction :=
  (List.range length).map fun i => setpxAction pen (x + i) y

/-- R122: pixels downward from (x, y). -/
def vlineActions (x y length : Nat) (pen : Bool) : List HostAction :=
  (List.range length).map fun i => setpxAction pen x (y + i)

/-- R123: top, bottom, left and right edge. A length `L <= 0` draws nothing: as a natural it is 0. -/
def boxActions (x1 y1 x2 y2 : Nat) (pen : Bool) : List HostAction :=
  let l := ((x2 : Int) - x1 + 1).toNat
  let m := ((y2 : Int) - y1 + 1).toNat
  hlineActions x1 y1 l pen ++ hlineActions x1 y2 l pen ++ vlineActions x1 y1 m pen ++ vlineActions x2 y1 m pen

/-- R124's pixels in row-major order, from offset (tx, ty). `mono` is MONO: 0 means black, which sets the pixel. -/
def imageActions (mono : Nat → BitVec 1) (img : Image) (tx ty : Nat) : List HostAction :=
  (List.range img.height).flatMap fun j => (List.range img.width).map fun i =>
    setpxAction (mono (img.sample i j) == 0) (tx + i) (ty + j)

/-- R124: the size check, then the centering, then the pixels. -/
def drawimgActions (mono : Nat → BitVec 1) (p : Params) (img : Image) (tx ty : Nat) (centerX centerY : Bool) :
    Except HostError (List HostAction) :=
  if img.width > p.width ∨ img.height > p.height then .error .imageTooLarge
  else
    let tx := if centerX then p.width / 2 - img.width / 2 else tx
    let ty := if centerY then p.height / 2 - img.height / 2 else ty
    .ok (imageActions mono img tx ty)

/-- A rotation of the row `d`, by ROTR (`right`) or ROTL (R126, R127). -/
def rotationAction (right : Bool) (d : RowDesc) (steps : BitVec 3) : HostAction :=
  if d.base < 2 ^ 16 then
    let base := BitVec.ofNat 16 d.base
    let stride := BitVec.ofNat 16 d.stride
    let len := BitVec.ofNat 16 d.len
    .command (if right then .rotr base stride len steps else .rotl base stride len steps)
  else .unfit

/-- READB of every index (R125's first line). -/
def dumpActions (p : Params) : List HostAction :=
  (List.range p.size).map fun i => .command (.readb (BitVec.ofNat 16 i))

/-- What a pseudo-instruction expands into on an instance (R120 to R127). -/
def expand (mono : Nat → BitVec 1) (p : Params) : Pseudo → Except HostError (List HostAction)
  | .hline x y length pen      => .ok (hlineActions x y length pen)
  | .vline x y length pen      => .ok (vlineActions x y length pen)
  | .box x1 y1 x2 y2 pen       => .ok (boxActions x1 y1 x2 y2 pen)
  | .drawimg img tx ty cx cy   => drawimgActions mono p img tx ty cx cy
  | .dump _ _                  => .ok (dumpActions p)
  | .stripr c steps            => .ok [rotationAction true (columnStrip p c) steps]
  | .stripl c steps            => .ok [rotationAction false (columnStrip p c) steps]
  | .pager g steps             => .ok [rotationAction true (pageSlice p g) steps]
  | .pagel g steps             => .ok [rotationAction false (pageSlice p g) steps]

/-! ### Issuing an expansion -/

/-- What the host holds after (part of) an expansion: the machine's state, the error that stopped it, if any, and the
bytes its READBs returned. -/
structure HostResult where
  state  : State
  error  : Option HostError
  bytes  : List Byte
  deriving DecidableEq, Repr

/-- `f` of the next state of `o`; a fault or a refusal stays. -/
def andThen {σ τ : Type} (o : Host.Outcome σ Fault Refusal) (f : σ → Host.Outcome τ Fault Refusal) :
    Host.Outcome τ Fault Refusal :=
  match o with
  | .next s => f s
  | .fault r => .fault r
  | .refused r => .refused r

/-- The value the host's last Read returned. -/
def lastReply (s : State) : RegWord := s.replies.getLastD 0

/-- The bytes the host takes after a successful command: RESULT[7:0] after a READB (R125), nothing after another. -/
def takeByte (i : Instr) (s : State) : Host.Outcome (State × List Byte) Fault Refusal :=
  match i with
  | .readb _ => andThen (transact (.read 0) s) fun t => .next (t, [(lastReply t).extractLsb' 0 8])
  | _ => .next (s, [])

/-- The host's loop (R120): issue a command, read STATUS.LAST_ERR, stop at the first that is not 0. -/
def runActions : List HostAction → State → Host.Outcome HostResult Fault Refusal
  | [], s => .next { state := s, error := none, bytes := [] }
  | .unfit :: _, s => .next { state := s, error := some (.engine ErrCode.range.code), bytes := [] }
  | .command i :: rest, s =>
    andThen (transact (.issue (encode i)) s) fun t =>
    andThen (transact (.read 1) t) fun u =>
    if (lastReply u).extractLsb' 0 4 = 0#4 then
      andThen (takeByte i u) fun vb =>
      andThen (runActions rest vb.1) fun r =>
      .next { r with bytes := vb.2 ++ r.bytes }
    else .next { state := u, error := some (.engine ((lastReply u).extractLsb' 0 4)), bytes := [] }

/-- A pseudo-instruction (R120): its expansion's commands, or, where the expansion itself fails, none. -/
def runPseudo (mono : Nat → BitVec 1) (q : Pseudo) (s : State) : Host.Outcome HostResult Fault Refusal :=
  match expand mono s.params q with
  | .error e => .next { state := s, error := some e, bytes := [] }
  | .ok actions => runActions actions s

/-! ### The text of DUMP (R125) -/

/-- Text line of page `g` and bit `b`: one character per column, then the line's end. -/
def dumpLine (p : Params) (bytes : List Byte) (unset set : Char) (g b : Nat) : List Char :=
  (List.range p.columns).map (fun c => if (bytes.getD (g * p.columns + c) 0).getLsbD b then set else unset)
    ++ ['\n']

/-- The text DUMP renders from the bytes it read: pages outer, bit 7 first, columns innermost (R125). -/
def dumpText (p : Params) (bytes : List Byte) (unset set : Char) : List Char :=
  (List.range p.pages).flatMap fun g => [7, 6, 5, 4, 3, 2, 1, 0].flatMap fun b => dumpLine p bytes unset set g b

end Sys2Proof.Machine
end

