-- ==== Sys2Proof/Machine/Assembler.lean ====
section
/-! DEFINITION. The assembler (R69) and the text of the pseudo-instructions (R70), on lines as lists of characters. What
R69 leaves open of the text (blanks, letter case of hexadecimal digits, empty lines) is in log entry 11. -/

namespace Sys2Proof.Machine

/-- Why the assembler refuses a line: it "produces no word" (R69). -/
inductive AsmError where
  /-- No command or pseudo-instruction has this mnemonic. -/
  | unknownMnemonic
  /-- The number of operands is not one the syntax has. -/
  | operandCount
  /-- An operand is no number, or a `-` stands where none is allowed. -/
  | badNumber
  /-- An operand is outside its range. -/
  | outOfRange
  /-- The host has no image of this name (`drawimg`). -/
  | unknownImage
  deriving DecidableEq, Repr

/-- What a line stands for. -/
inductive AsmLine where
  /-- Nothing: an empty line or a comment. -/
  | blank
  /-- A command of R69. -/
  | command (i : Instr)
  /-- A pseudo-instruction of R70. -/
  | pseudo (q : Pseudo)
  deriving DecidableEq, Repr

/-! ### Text -/

def isBlankChar (c : Char) : Bool := c == ' ' || c == '\t'

/-- The line before a `;`, which starts a comment (R69). -/
def dropComment (line : List Char) : List Char := line.takeWhile (fun c => c != ';')

def trimBlanks (t : List Char) : List Char :=
  ((t.dropWhile isBlankChar).reverse.dropWhile isBlankChar).reverse

/-- The pieces of a text between its commas (R69: operands are separated by commas). -/
def splitAtCommas : List Char → List (List Char)
  | [] => [[]]
  | c :: rest =>
    match splitAtCommas rest with
    | [] => [[c]]
    | piece :: pieces => if c = ',' then [] :: piece :: pieces else (c :: piece) :: pieces

def operandTexts (t : List Char) : List (List Char) :=
  if (trimBlanks t).isEmpty then [] else (splitAtCommas t).map trimBlanks

/-! ### Numbers: decimal or 0x hexadecimal (R69) -/

def digitValue (base : Nat) (c : Char) : Option Nat :=
  let v :=
    if '0' ≤ c ∧ c ≤ '9' then c.toNat - '0'.toNat
    else if 'a' ≤ c ∧ c ≤ 'f' then c.toNat - 'a'.toNat + 10
    else if 'A' ≤ c ∧ c ≤ 'F' then c.toNat - 'A'.toNat + 10
    else base
  if v < base then some v else none

def digitsValue (base : Nat) : Nat → List Char → Option Nat
  | acc, [] => some acc
  | acc, c :: rest =>
    match digitValue base c with
    | some v => digitsValue base (acc * base + v) rest
    | none => none

def parseNat : List Char → Except AsmError Nat
  | [] => .error .badNumber
  | '0' :: 'x' :: d :: ds =>
    match digitsValue 16 0 (d :: ds) with
    | some v => .ok v
    | none => .error .badNumber
  | ds =>
    match digitsValue 10 0 ds with
    | some v => .ok v
    | none => .error .badNumber

/-- A number that may have a `-` sign: only the operand of vscroll and hscroll (R69). -/
def parseInt : List Char → Except AsmError Int
  | '-' :: ds => (parseNat ds).map fun (v : Nat) => -(v : Int)
  | ds => (parseNat ds).map fun (v : Nat) => (v : Int)

/-- An unsigned operand of `width` bits (R69's ranges). -/
def parseField (width : Nat) (t : List Char) : Except AsmError (BitVec width) := do
  let v ← parseNat t
  if v < 2 ^ width then .ok (BitVec.ofNat width v) else .error .outOfRange

/-- A pen (R69), or a centering flag of `drawimg` (log entry 11): 0 or 1. -/
def parseBit (t : List Char) : Except AsmError Bool := do
  let v ← parseField 1 t
  .ok (v == 1)

/-- A scroll count: -32768..32767 (R69). -/
def parseCount (t : List Char) : Except AsmError Int := do
  let n ← parseInt t
  if StepCountFits n then .ok n else .error .outOfRange

/-! ### Operand lists -/

def pixelOperands (build : BitVec 16 → BitVec 16 → Bool → Instr) : List (List Char) → Except AsmError Instr
  | [x, y] => do .ok (build (← parseField 16 x) (← parseField 16 y) true)
  | [x, y, pen] => do .ok (build (← parseField 16 x) (← parseField 16 y) (← parseBit pen))
  | _ => .error .operandCount

def rowOperands (build : BitVec 16 → BitVec 16 → BitVec 16 → BitVec 3 → Instr) :
    List (List Char) → Except AsmError Instr
  | [base, stride, len, steps] => do
    .ok (build (← parseField 16 base) (← parseField 16 stride) (← parseField 16 len) (← parseField 3 steps))
  | _ => .error .operandCount

def countOperand (build : Int → Instr) : List (List Char) → Except AsmError Instr
  | [n] => do .ok (build (← parseCount n))
  | _ => .error .operandCount

def lineOperands (build : Nat → Nat → Nat → Bool → Pseudo) : List (List Char) → Except AsmError Pseudo
  | [x, y, length] => do .ok (build (← parseNat x) (← parseNat y) (← parseNat length) true)
  | [x, y, length, pen] => do
    .ok (build (← parseNat x) (← parseNat y) (← parseNat length) (← parseBit pen))
  | _ => .error .operandCount

def boxOperands : List (List Char) → Except AsmError Pseudo
  | [x1, y1, x2, y2] => do
    .ok (.box (← parseNat x1) (← parseNat y1) (← parseNat x2) (← parseNat y2) true)
  | [x1, y1, x2, y2, pen] => do
    .ok (.box (← parseNat x1) (← parseNat y1) (← parseNat x2) (← parseNat y2) (← parseBit pen))
  | _ => .error .operandCount

/-- An operand that may be left out at the end of the list, with its default. -/
def optionalOperand {α : Type} (default : α) (parse : List Char → Except AsmError α) :
    Option (List Char) → Except AsmError α
  | none => .ok default
  | some t => parse t

/-- The operands of `drawimg` (R70, R124): the image's name, then offsets that default to 0 and centering flags that
default to false. -/
def drawimgOperands (images : List Char → Option Image) : List (List Char) → Except AsmError Pseudo
  | [] => .error .operandCount
  | name :: rest =>
    if 4 < rest.length then .error .operandCount
    else match images name with
      | none => .error .unknownImage
      | some image => do
        .ok (.drawimg image (← optionalOperand 0 parseNat rest[0]?) (← optionalOperand 0 parseNat rest[1]?)
          (← optionalOperand false parseBit rest[2]?) (← optionalOperand false parseBit rest[3]?))

def shapeOperands (build : Nat → BitVec 3 → Pseudo) : List (List Char) → Except AsmError Pseudo
  | [c, steps] => do .ok (build (← parseNat c) (← parseField 3 steps))
  | _ => .error .operandCount

def dumpOperands : List (List Char) → Except AsmError Pseudo
  | [] => .ok .dump
  | [[unset, set]] => .ok (.dump unset set)
  | _ => .error .operandCount

/-! ### Lines -/

/-- The command of a mnemonic and its operands (R69), if the mnemonic is a command's. -/
def assembleCommand (mnemonic : List Char) (ops : List (List Char)) : Option (Except AsmError Instr) :=
  if mnemonic = "clear".toList then some (if ops.isEmpty then .ok .clear else .error .operandCount)
  else if mnemonic = "setpx".toList then some (pixelOperands .setpx ops)
  else if mnemonic = "xlate".toList then
    some (if ops.length = 2 then pixelOperands (fun x y _ => .xlate x y) ops else .error .operandCount)
  else if mnemonic = "readb".toList then
    some (match ops with | [i] => (parseField 16 i).map Instr.readb | _ => .error .operandCount)
  else if mnemonic = "writeb".toList then
    some (match ops with
      | [i, v] => do .ok (.writeb (← parseField 16 i) (← parseField 8 v))
      | _ => .error .operandCount)
  else if mnemonic = "rotr".toList then some (rowOperands .rotr ops)
  else if mnemonic = "rotl".toList then some (rowOperands .rotl ops)
  else if mnemonic = "vscroll".toList then some (countOperand .vscroll ops)
  else if mnemonic = "hscroll".toList then some (countOperand .hscroll ops)
  else none

/-- The pseudo-instruction of a mnemonic and its operands (R70), if the mnemonic is one's. `images` gives the host's
images by the names that `drawimg` uses (log entry 11). -/
def assemblePseudo (images : List Char → Option Image) (mnemonic : List Char) (ops : List (List Char)) :
    Except AsmError Pseudo :=
  if mnemonic = "hline".toList then lineOperands (fun x y length pen => .hline x y length pen) ops
  else if mnemonic = "vline".toList then lineOperands (fun x y length pen => .vline x y length pen) ops
  else if mnemonic = "box".toList then boxOperands ops
  else if mnemonic = "drawimg".toList then drawimgOperands images ops
  else if mnemonic = "dump".toList then dumpOperands ops
  else if mnemonic = "stripr".toList then shapeOperands .stripr ops
  else if mnemonic = "stripl".toList then shapeOperands .stripl ops
  else if mnemonic = "pager".toList then shapeOperands .pager ops
  else if mnemonic = "pagel".toList then shapeOperands .pagel ops
  else .error .unknownMnemonic

/-- One line of assembly (R69, R70), on a host with the images `images`. -/
def assembleLine (images : List Char → Option Image) (line : List Char) : Except AsmError AsmLine :=
  let text := trimBlanks (dropComment line)
  if text.isEmpty then .ok .blank
  else
    let mnemonic := text.takeWhile (fun c => !isBlankChar c)
    let ops := operandTexts (text.dropWhile (fun c => !isBlankChar c))
    match assembleCommand mnemonic ops with
    | some (.ok i) => .ok (.command i)
    | some (.error e) => .error e
    | none => (assemblePseudo images mnemonic ops).map AsmLine.pseudo

/-- The word a line of R69 encodes; a line that is refused, or that is no command, produces none. No command's word
depends on the host's images. -/
def assembleWord (line : List Char) : Option CommandWord :=
  match assembleLine (fun _ => none) line with
  | .ok (.command i) => some (encode i)
  | _ => none

end Sys2Proof.Machine
end

