-- ==== Sys2Proof/Safety.lean ====
section
/-! DEFINITION. The terms claims use: the invariant of a state, what a successful and a failed command leave alone, and
runs with their observation (R167). -/

namespace Sys2Proof.Machine

/-- The FB invariant (R21): a canonical list of bytes, all inside the instance's SIZE. -/
abbrev State.fbInv (s : State) : Prop := Memory.wf s.fb ∧ Memory.inMap s.params.size s.fb

/-- The STATUS invariant (R23): LAST_ERR is 0 to 4, and a failed last command shows in ANY_ERR. -/
abbrev State.statusInv (s : State) : Prop :=
  s.status.lastErr.toNat ≤ 4 ∧ (s.status.lastErr ≠ 0 → s.status.anyErr = true)

/-- The invariant every step keeps: a legal instance (R5) whose FB and STATUS are as R21 and R23 say. -/
abbrev State.inv (s : State) : Prop := s.params.legal ∧ s.fbInv ∧ s.statusInv

/-- `t` and `s` agree on everything that no command writes: the parameters (R5) and the host's side (R29). -/
abbrev SameOutside (s t : State) : Prop :=
  t.params = s.params ∧ t.pending = s.pending ∧ t.replies = s.replies

/-- `t` is `s` after a failed command (R142): LAST_ERR is the code, ANY_ERR is 1, and FB, RESULT and everything else are
unchanged. -/
abbrev FailedWith (e : ErrCode) (s t : State) : Prop :=
  t.status.lastErr = e.code ∧ t.status.anyErr = true ∧ t.fb = s.fb ∧ t.result = s.result ∧ SameOutside s t

/-- STATUS and the rest of `t` after a successful command in `s` (R143): LAST_ERR is 0 and ANY_ERR is unchanged. FB and
RESULT are the command's own. -/
abbrev Succeeded (s t : State) : Prop :=
  t.status.lastErr = 0 ∧ t.status.anyErr = s.status.anyErr ∧ SameOutside s t

/-- Every byte of FB outside `inside` reads in `t` as it does in `s`. -/
abbrev FbSameOutside (inside : Nat → Prop) (s t : State) : Prop :=
  ∀ a, ¬ inside a → Memory.read t.fb a = Memory.read s.fb a

/-- The number of 1 bits of a row (R85 law 5, R113 law 4). -/
def bitCount (r : List Byte) : Nat := (List.range (8 * r.length)).countP (fun j => ringBit r j)

/-- The observation of a run (R167). -/
structure Observation where
  fb      : Memory
  result  : RegWord
  status  : RegWord
  replies : List RegWord
  deriving DecidableEq, Repr

/-- What is observed of a run that ended in `s` (R167). Its replies are those of the run's own Reads: `runOf` starts the
run with none. -/
def observe (s : State) : Observation :=
  { fb := s.fb, result := s.result, status := s.status.word, replies := s.replies }

/-- The run of the transactions `ts` from `s` (R167): one step for each. The host has lined up these and no others, and
the replies it collects are the run's: what it read before the run is not part of it. -/
def runOf (ts : List Transaction) (s : State) : Outcome :=
  Sys2Proof.core.run ts.length ((s.withPending ts).withReplies [])

/-- No command failed (R167), for a run from a state with ANY_ERR = 0. -/
def noCommandFailed (s : State) : Bool := !s.status.anyErr

end Sys2Proof.Machine
end

