-- ==== Sys2Proof/Certificates/Slice0/Obligations.lean ====
section
/-! DEFINITION. The statements for the provers. Each docstring names the rule it formalises, or says what it rests on.
`transact` is one transaction of the host (R29); a statement over it holds whatever the host lines up next. -/

open Sys2Proof Sys2Proof.Machine

/-! ### Reset and the output registers -/

/-- R31, for every instance: FB, RESULT and STATUS are 0, GEOMETRY and CONFIG have their constants, and the engine is
ready to accept a command. -/
def Obligations.ResetStateHoldsTheResetValues : Prop :=
  ∀ p : Params,
    (∀ i, Memory.read (State.resetOf p).fb i = 0) ∧
    readRegister 0 (State.resetOf p) = 0x00000000 ∧
    (State.resetOf p).status.lastErr = 0 ∧ (State.resetOf p).status.anyErr = false ∧
    (readRegister 1 (State.resetOf p)).extractLsb' 5 27 = 0 ∧
    readRegister 2 (State.resetOf p) = BitVec.ofNat 16 p.columns ++ BitVec.ofNat 16 p.pages ∧
    readRegister 3 (State.resetOf p)
      = 0#30 ++ BitVec.ofBool (p.hscrollSense == .backToFront) ++ BitVec.ofBool (p.boundaryMode == .legacyInclusive) ∧
    ∀ w, ∃ t, transact (.issue w) (State.resetOf p) = .next t

/-- R160: from any state, Reset makes every FB byte, RESULT, LAST_ERR and ANY_ERR 0 and leaves the parameters. -/
def Obligations.ResetTransactionClearsTheEngine : Prop :=
  ∀ s : State, ∃ t, transact .reset s = .next t ∧
    (∀ i, Memory.read t.fb i = 0) ∧ t.result = 0 ∧ t.status.lastErr = 0 ∧ t.status.anyErr = false ∧
    t.params = s.params ∧ ∀ w, ∃ u, transact (.issue w) t = .next u

/-- After R161: the state Reset leaves does not depend on the command that came before it, so nothing of that command
survives. (The model has no reset inside a command: R161's first sentence.) -/
def Obligations.ResetErasesTheCommandBeforeIt : Prop :=
  ∀ (s t : State) (w : CommandWord), transact (.issue w) s = .next t → transact .reset t = transact .reset s

/-- R24: GEOMETRY holds PAGES in bits 15:0 and COLUMNS in bits 31:16, and no transaction changes it. -/
def Obligations.GeometryReadsTheDimensions : Prop :=
  ∀ s : State, s.params.legal →
    ((readRegister 2 s).extractLsb' 0 16).toNat = s.params.pages ∧
    ((readRegister 2 s).extractLsb' 16 16).toNat = s.params.columns ∧
    ∀ tr t, transact tr s = .next t → readRegister 2 t = readRegister 2 s

/-- R25: CONFIG[0] is BOUNDARY_MODE, CONFIG[1] is HSCROLL_SENSE, the rest is 0, and no transaction changes it. -/
def Obligations.ConfigReadsTheModes : Prop :=
  ∀ s : State,
    ((readRegister 3 s).getLsbD 0 = true ↔ s.params.boundaryMode = .legacyInclusive) ∧
    ((readRegister 3 s).getLsbD 1 = true ↔ s.params.hscrollSense = .backToFront) ∧
    (readRegister 3 s).extractLsb' 2 30 = 0 ∧
    ∀ tr t, transact tr s = .next t → readRegister 3 t = readRegister 3 s

/-- R23: the fields of STATUS; every command writes LAST_ERR, a failed one sets ANY_ERR, only reset clears it; LAST_ERR
only gets 0 to 4; and the next command runs whatever STATUS holds. -/
def Obligations.StatusFieldsAndTheirWriters : Prop :=
  ∀ s : State,
    (readRegister 1 s).extractLsb' 0 4 = s.status.lastErr ∧
    (readRegister 1 s).getLsbD 4 = s.status.anyErr ∧
    (readRegister 1 s).extractLsb' 5 27 = 0 ∧
    (∀ w, ∃ t, transact (.issue w) s = .next t ∧
      ((t.status.lastErr = 0 ∧ t.status.anyErr = s.status.anyErr) ∨
        (1 ≤ t.status.lastErr.toNat ∧ t.status.lastErr.toNat ≤ 4 ∧ t.status.anyErr = true))) ∧
    (∀ sel t, transact (.read sel) s = .next t → t.status = s.status) ∧
    (∀ t, transact .reset s = .next t → t.status.lastErr = 0 ∧ t.status.anyErr = false)

/-- R26: the select map; a read returns the register's value and changes nothing of the BRE; only a command or reset
changes RESULT or STATUS, and nothing changes GEOMETRY or CONFIG. -/
def Obligations.HostReadsTheSelectedRegister : Prop :=
  ∀ s : State,
    readRegister 0 s = s.result ∧
    readRegister 1 s = s.status.word ∧
    readRegister 2 s = geometryWord s.params ∧
    readRegister 3 s = configWord s.params ∧
    (∀ sel, ∃ t, transact (.read sel) s = .next t ∧ t.replies = s.replies ++ [readRegister sel s] ∧
      t.params = s.params ∧ t.fb = s.fb ∧ t.result = s.result ∧ t.status = s.status ∧ t.pending = s.pending) ∧
    (∀ tr t, transact tr s = .next t →
      readRegister 2 t = readRegister 2 s ∧ readRegister 3 t = readRegister 3 s)

/-- R22 and R164: RESULT after reset, after XLATE and after READB, and that no other command writes it, a failed one
included. -/
def Obligations.ResultHoldsTheLastAnswer : Prop :=
  (∀ p, (State.resetOf p).result = 0) ∧
  ∀ (s t : State) (w : CommandWord), transact (.issue w) s = .next t →
    (t.status.lastErr ≠ 0 → t.result = s.result) ∧
    ∀ i, decode w = .ok i → t.status.lastErr = 0 →
      match i with
      | .xlate x y => ∃ idx bit, translatePixel s.params x.toNat y.toNat = .ok (idx, bit) ∧
          t.result.extractLsb' 0 16 = BitVec.ofNat 16 idx ∧ t.result.extractLsb' 16 3 = BitVec.ofNat 3 bit ∧
          t.result.extractLsb' 19 13 = 0
      | .readb j => t.result.extractLsb' 0 8 = Memory.read s.fb j.toNat ∧ t.result.extractLsb' 8 24 = 0
      | _ => t.result = s.result

/-! ### The step -/

/-- The step performs the host's oldest transaction; with none it changes nothing. The queue is the model's form of the
host (log entry 2), so this rests on R20, R29 and R55. -/
def Obligations.StepPerformsTheOldestTransaction : Prop :=
  (∀ (s : State) tr rest, s.pending = tr :: rest → step s = transact tr (s.withPending rest)) ∧
  ∀ s : State, s.pending = [] → step s = .next s

/-- A step runs the decoded command: with `Issue(w)` next and `w` the word of `i`, the step is `exec i` with the
transaction taken from the queue; with an illegal word it raises E_ILLEGAL. -/
def Obligations.StepRunsTheDecodedCommand : Prop :=
  ∀ (s : State) w rest, s.pending = .issue w :: rest →
    (∀ i, decode w = .ok i → step s = exec i (s.withPending rest) ∧ i.wellFormed = true) ∧
    (∀ e, decode w = .error e → ∃ t, step s = .next t ∧ FailedWith .illegal (s.withPending rest) t)

/-- After R30 and R166: every transaction completes with a next state, and a command leaves the parameters and the host's
side as they were. -/
def Obligations.EveryTransactionCompletes : Prop :=
  (∀ s : State, ∃ t, step s = .next t) ∧
  ∀ (s : State) (i : Instr), ∃ t, exec i s = .next t ∧ SameOutside s t

/-! ### Encoding -/

/-- R61: a word is {OP, A16, B16, C16, D8} at bits 63:56, 55:40, 39:24, 23:8 and 7:0. -/
def Obligations.WordIsItsFields : Prop :=
  (∀ w : CommandWord, w.toNat = (opField w).toNat * 2 ^ 56 + (a16Field w).toNat * 2 ^ 40 + (b16Field w).toNat * 2 ^ 24
      + (c16Field w).toNat * 2 ^ 8 + (d8Field w).toNat) ∧
  ∀ op a b c d, (packWord op a b c d).toNat
      = op.toNat * 2 ^ 56 + a.toNat * 2 ^ 40 + b.toNat * 2 ^ 24 + c.toNat * 2 ^ 8 + d.toNat

/-- R62: the words of each format and the operands they decode to, the step count of format S in two's complement; a
field the format marks 0 is zero. -/
def Obligations.FormatsDecodeToTheirOperands : Prop :=
  ∀ w : CommandWord,
    (decode w = .ok .clear ↔ w = packWord 0x01 0 0 0 0) ∧
    (∀ x y pen, decode w = .ok (.setpx x y pen) ↔ w = packWord 0x02 x y 0 (0#7 ++ BitVec.ofBool pen)) ∧
    (∀ x y, decode w = .ok (.xlate x y) ↔ w = packWord 0x03 x y 0 0) ∧
    (∀ i, decode w = .ok (.readb i) ↔ w = packWord 0x04 i 0 0 0) ∧
    (∀ i v, decode w = .ok (.writeb i v) ↔ w = packWord 0x05 i 0 0 v) ∧
    (∀ base stride len steps,
      (decode w = .ok (.rotr base stride len steps) ↔ w = packWord 0x06 base stride len (0#5 ++ steps)) ∧
      (decode w = .ok (.rotl base stride len steps) ↔ w = packWord 0x07 base stride len (0#5 ++ steps))) ∧
    ∀ n : Int,
      (decode w = .ok (.vscroll n) ↔ ∃ a : BitVec 16, w = packWord 0x08 a 0 0 0 ∧
        n = if a.toNat < 32768 then (a.toNat : Int) else (a.toNat : Int) - 65536) ∧
      (decode w = .ok (.hscroll n) ↔ ∃ a : BitVec 16, w = packWord 0x09 a 0 0 0 ∧
        n = if a.toNat < 32768 then (a.toNat : Int) else (a.toNat : Int) - 65536)

/-- R63: a word encodes the command of a row exactly when the word under the row's mask is the row's match. -/
def Obligations.MasksDecideTheCommand : Prop :=
  ∀ w : CommandWord,
    (decode w = .ok .clear ↔ w &&& 0xFFFFFFFFFFFFFFFF = 0x0100000000000000) ∧
    ((∃ x y pen, decode w = .ok (.setpx x y pen)) ↔ w &&& 0xFF00000000FFFFFE = 0x0200000000000000) ∧
    ((∃ x y, decode w = .ok (.xlate x y)) ↔ w &&& 0xFF00000000FFFFFF = 0x0300000000000000) ∧
    ((∃ i, decode w = .ok (.readb i)) ↔ w &&& 0xFF0000FFFFFFFFFF = 0x0400000000000000) ∧
    ((∃ i v, decode w = .ok (.writeb i v)) ↔ w &&& 0xFF0000FFFFFFFF00 = 0x0500000000000000) ∧
    ((∃ b t l n, decode w = .ok (.rotr b t l n)) ↔ w &&& 0xFF000000000000F8 = 0x0600000000000000) ∧
    ((∃ b t l n, decode w = .ok (.rotl b t l n)) ↔ w &&& 0xFF000000000000F8 = 0x0700000000000000) ∧
    ((∃ n, decode w = .ok (.vscroll n)) ↔ w &&& 0xFF0000FFFFFFFFFF = 0x0800000000000000) ∧
    ((∃ n, decode w = .ok (.hscroll n)) ↔ w &&& 0xFF0000FFFFFFFFFF = 0x0900000000000000)

/-- R64: an assigned OP with a reserved bit set raises E_ILLEGAL with no other effect. -/
def Obligations.ReservedBitsAreIllegal : Prop :=
  ∀ (op : BitVec 8) (a b c : BitVec 16) (d : BitVec 8) (s : State),
    ((op = 0x01 ∧ (a ≠ 0 ∨ b ≠ 0 ∨ c ≠ 0 ∨ d ≠ 0)) ∨
      (op = 0x02 ∧ (c ≠ 0 ∨ d.extractLsb' 1 7 ≠ 0)) ∨
      (op = 0x03 ∧ (c ≠ 0 ∨ d ≠ 0)) ∨
      (op = 0x04 ∧ (b ≠ 0 ∨ c ≠ 0 ∨ d ≠ 0)) ∨
      (op = 0x05 ∧ (b ≠ 0 ∨ c ≠ 0)) ∨
      ((op = 0x06 ∨ op = 0x07) ∧ d.extractLsb' 3 5 ≠ 0) ∨
      ((op = 0x08 ∨ op = 0x09) ∧ (b ≠ 0 ∨ c ≠ 0 ∨ d ≠ 0))) →
    ∃ t, transact (.issue (packWord op a b c d)) s = .next t ∧ FailedWith .illegal s t

/-- R65: OP 0x00 and every OP in 0x0A..0xFF raise E_ILLEGAL with no other effect, whatever the other bits. -/
def Obligations.UnassignedOpcodesAreIllegal : Prop :=
  ∀ (op : BitVec 8) (a b c : BitVec 16) (d : BitVec 8) (s : State), op = 0x00 ∨ 0x0A ≤ op.toNat →
    ∃ t, transact (.issue (packWord op a b c d)) s = .next t ∧ FailedWith .illegal s t

/-- Decoding the word of a well-formed command gives the command back. -/
def Obligations.DecodeOfEncodeIsTheCommand : Prop :=
  ∀ i : Instr, i.wellFormed = true → decode (encode i) = .ok i

/-- Each word has one meaning: a word that decodes is the word of the command it decodes to, which is well-formed. -/
def Obligations.EncodeOfDecodeIsTheWord : Prop :=
  ∀ (w : CommandWord) (i : Instr), decode w = .ok i → encode i = w ∧ i.wellFormed = true

/-- R72: the worked encodings, as text, as words and as commands. -/
def Obligations.WorkedEncodingsAgree : Prop :=
  (assembleWord "clear".toList = some 0x0100000000000000 ∧ decode 0x0100000000000000 = .ok .clear) ∧
  (assembleWord "setpx 5, 13, 1".toList = some 0x020005000D000001 ∧
    decode 0x020005000D000001 = .ok (.setpx 5 13 true)) ∧
  (assembleWord "setpx 5, 13, 0".toList = some 0x020005000D000000 ∧
    decode 0x020005000D000000 = .ok (.setpx 5 13 false)) ∧
  (assembleWord "xlate 127, 63".toList = some 0x03007F003F000000 ∧ decode 0x03007F003F000000 = .ok (.xlate 127 63)) ∧
  (assembleWord "readb 896".toList = some 0x0403800000000000 ∧ decode 0x0403800000000000 = .ok (.readb 896)) ∧
  (assembleWord "writeb 2, 0xF0".toList = some 0x05000200000000F0 ∧
    decode 0x05000200000000F0 = .ok (.writeb 2 0xF0)) ∧
  (assembleWord "rotr 0, 1, 3, 4".toList = some 0x0600000001000304 ∧
    decode 0x0600000001000304 = .ok (.rotr 0 1 3 4)) ∧
  (assembleWord "rotl 0, 128, 8, 1".toList = some 0x0700000080000801 ∧
    decode 0x0700000080000801 = .ok (.rotl 0 128 8 1)) ∧
  (assembleWord "vscroll 1".toList = some 0x0800010000000000 ∧ decode 0x0800010000000000 = .ok (.vscroll 1)) ∧
  (assembleWord "vscroll -1".toList = some 0x08FFFF0000000000 ∧ decode 0x08FFFF0000000000 = .ok (.vscroll (-1))) ∧
  (assembleWord "hscroll -3".toList = some 0x09FFFD0000000000 ∧ decode 0x09FFFD0000000000 = .ok (.hscroll (-3)))

/-- R71: a byte-wide link carries w[63:56] first and w[7:0] last, and the word is read back from it with the bytes that
follow left over. -/
def Obligations.LinkCarriesTheWordMostSignificantByteFirst : Prop :=
  ∀ (w : CommandWord) (rest : List Byte),
    (linkBytes w).length = 8 ∧
    (∀ k, k < 8 → (linkBytes w).getD k 0 = w.extractLsb' (56 - 8 * k) 8) ∧
    wordOfLink (linkBytes w ++ rest) = some (w, rest)

/-- After R69: a line the assembler accepts as a command is well-formed, and its word decodes to the command. -/
def Obligations.AssembledCommandsDecodeBack : Prop :=
  ∀ (images : List Char → Option Image) (line : List Char) (i : Instr),
    assembleLine images line = .ok (.command i) →
    i.wellFormed = true ∧ ∃ w, assembleWord line = some w ∧ decode w = .ok i

/-! ### Errors -/

/-- R142: a failed command writes its code to LAST_ERR, sets ANY_ERR and changes nothing else; the engine then takes the
next command. -/
def Obligations.FailedCommandsChangeOnlyStatus : Prop :=
  ∀ (s t : State) (w : CommandWord), transact (.issue w) s = .next t → t.status.lastErr ≠ 0 →
    (∃ e, FailedWith e s t) ∧ ∀ w', ∃ u, transact (.issue w') t = .next u

/-- R143: a command that raises nothing sets LAST_ERR to 0 and leaves ANY_ERR; its FB and RESULT effects are those of
its own rule, `exec` of it. -/
def Obligations.SuccessfulCommandsKeepAnyErr : Prop :=
  ∀ (s t : State) (w : CommandWord), transact (.issue w) s = .next t → (¬ ∃ e, FailedWith e s t) →
    t.status.lastErr = 0 ∧ t.status.anyErr = s.status.anyErr ∧ ∃ i, decode w = .ok i ∧ exec i s = .next t

/-- R140 and R141: the code every command leaves in LAST_ERR, the first that applies in the order decode, arguments,
range, index. -/
def Obligations.FirstErrorIsReported : Prop :=
  ∀ (s t : State) (w : CommandWord), transact (.issue w) s = .next t →
    t.status.lastErr =
      match decode w with
      | .error _ => 1
      | .ok .clear => 0
      | .ok (.setpx x y _) | .ok (.xlate x y) =>
        if s.params.boundaryMode = .strict then
          if x.toNat ≥ s.params.width ∨ y.toNat ≥ s.params.height then 2 else 0
        else if x.toNat > s.params.width ∨ y.toNat > s.params.height then 2
        else if y.toNat / 8 * s.params.columns + x.toNat ≥ s.params.pages * s.params.columns then 4
        else 0
      | .ok (.readb i) | .ok (.writeb i _) => if i.toNat ≥ s.params.pages * s.params.columns then 2 else 0
      | .ok (.rotr base stride len steps) | .ok (.rotl base stride len steps) =>
        if steps = 0 then 3
        else if len = 0 then 3
        else if len.toNat ≥ 2 ∧ stride = 0 then 3
        else if base.toNat + (len.toNat - 1) * stride.toNat ≥ s.params.pages * s.params.columns then 2
        else 0
      | .ok (.vscroll _) => 0
      | .ok (.hscroll _) => 0

/-! ### The address translator -/

/-- R43: Translate in STRICT mode. -/
def Obligations.StrictTranslation : Prop :=
  ∀ (p : Params) (x y : Nat), p.boundaryMode = .strict →
    (x ≥ p.columns ∨ y ≥ 8 * p.pages → translatePixel p x y = .error .range) ∧
    (x < p.columns ∧ y < 8 * p.pages →
      translatePixel p x y = .ok (y / 8 * p.columns + x, 7 - y % 8) ∧
      y / 8 * p.columns + x < p.pages * p.columns ∧ 7 - y % 8 ≤ 7)

/-- R44: Translate in LEGACY_INCLUSIVE mode, with the consequences the rule lists. -/
def Obligations.LegacyTranslation : Prop :=
  ∀ (p : Params) (x y : Nat), p.boundaryMode = .legacyInclusive → p.legal →
    (x > p.columns ∨ y > 8 * p.pages → translatePixel p x y = .error .range) ∧
    (x ≤ p.columns → y ≤ 8 * p.pages → y / 8 * p.columns + x ≥ p.pages * p.columns →
      translatePixel p x y = .error .index) ∧
    (x ≤ p.columns → y ≤ 8 * p.pages → y / 8 * p.columns + x < p.pages * p.columns →
      translatePixel p x y = .ok (y / 8 * p.columns + x, 7 - y % 8)) ∧
    (x ≤ p.columns → y = 8 * p.pages → translatePixel p x y = .error .index) ∧
    (x = p.columns → y / 8 = p.pages - 1 → translatePixel p x y = .error .index) ∧
    (x = p.columns → y / 8 < p.pages - 1 → translatePixel p x y = .ok ((y / 8 + 1) * p.columns, 7 - y % 8)) ∧
    (x < p.columns → y < 8 * p.pages → translatePixel p x y = translatePixel { p with boundaryMode := .strict } x y)

/-! ### Framebuffer access -/

/-- R90: CLEAR decodes from its word, makes every byte 0, cannot fail, and is idempotent; FB is then its reset value. -/
def Obligations.ClearZeroesTheFramebuffer : Prop :=
  (∀ w, decode w = .ok .clear ↔ w = packWord 0x01 0 0 0 0) ∧
  ∀ s : State, ∃ t, exec .clear s = .next t ∧ (∀ i, Memory.read t.fb i = 0) ∧ t.fb = (State.resetOf s.params).fb ∧
    t.result = s.result ∧ Succeeded s t ∧ exec .clear t = .next t

/-- R91: SETPX where the translation gives (idx, bit): that bit becomes `pen`, the byte's other bits and all other bytes
stay, and doing it again changes nothing; where the translation gives an error, SETPX reports it. -/
def Obligations.SetpxWritesOneBit : Prop :=
  (∀ w x y pen, decode w = .ok (.setpx x y pen) ↔ w = packWord 0x02 x y 0 (0#7 ++ BitVec.ofBool pen)) ∧
  ∀ (s : State) (x y : BitVec 16) (pen : Bool),
    (∀ e, translatePixel s.params x.toNat y.toNat = .error e →
      ∃ t, exec (.setpx x y pen) s = .next t ∧ FailedWith e s t) ∧
    (∀ idx bit, translatePixel s.params x.toNat y.toNat = .ok (idx, bit) →
      ∃ t, exec (.setpx x y pen) s = .next t ∧
        (Memory.read t.fb idx).getLsbD bit = pen ∧
        (∀ b, b ≠ bit → (Memory.read t.fb idx).getLsbD b = (Memory.read s.fb idx).getLsbD b) ∧
        (∀ a, a ≠ idx → Memory.read t.fb a = Memory.read s.fb a) ∧
        t.result = s.result ∧ Succeeded s t ∧ exec (.setpx x y pen) t = .next t)

/-- R42 with R91: on the picture, SETPX at a pixel of the display makes that pixel `pen` and changes no other pixel. -/
def Obligations.SetpxChangesOnePixel : Prop :=
  ∀ (s : State) (x y : BitVec 16) (pen : Bool), x.toNat < s.params.width → y.toNat < s.params.height →
    ∃ t, exec (.setpx x y pen) s = .next t ∧ Succeeded s t ∧
      ∀ x' y', x' < s.params.width → y' < s.params.height →
        Memory.pixel t.params t.fb x' y'
          = if x' = x.toNat ∧ y' = y.toNat then pen else Memory.pixel s.params s.fb x' y'

/-- R92: XLATE puts the translation into RESULT and reads no byte of FB; an error is the translation's. -/
def Obligations.XlateAnswersTheTranslation : Prop :=
  (∀ w x y, decode w = .ok (.xlate x y) ↔ w = packWord 0x03 x y 0 0) ∧
  ∀ (s : State) (x y : BitVec 16), s.params.legal →
    (∀ e, translatePixel s.params x.toNat y.toNat = .error e → ∃ t, exec (.xlate x y) s = .next t ∧ FailedWith e s t) ∧
    (∀ idx bit, translatePixel s.params x.toNat y.toNat = .ok (idx, bit) →
      ∃ t, exec (.xlate x y) s = .next t ∧
        (t.result.extractLsb' 0 16).toNat = idx ∧ (t.result.extractLsb' 16 3).toNat = bit ∧
        t.result.extractLsb' 19 13 = 0 ∧ idx < s.params.size ∧ t.fb = s.fb ∧ Succeeded s t)

/-- R93: READB puts the byte into RESULT[7:0], 0 above it; an index outside the buffer is E_RANGE. -/
def Obligations.ReadbAnswersTheByte : Prop :=
  (∀ w i, decode w = .ok (.readb i) ↔ w = packWord 0x04 i 0 0 0) ∧
  ∀ (s : State) (i : BitVec 16),
    (i.toNat ≥ s.params.size → ∃ t, exec (.readb i) s = .next t ∧ FailedWith .range s t) ∧
    (i.toNat < s.params.size → ∃ t, exec (.readb i) s = .next t ∧
      t.result.extractLsb' 0 8 = Memory.read s.fb i.toNat ∧ t.result.extractLsb' 8 24 = 0 ∧ t.fb = s.fb ∧
      Succeeded s t)

/-- R94: WRITEB writes the byte and no other, for every byte value, and is idempotent; an index outside the buffer is
E_RANGE. -/
def Obligations.WritebWritesOneByte : Prop :=
  (∀ w i v, decode w = .ok (.writeb i v) ↔ w = packWord 0x05 i 0 0 v) ∧
  ∀ (s : State) (i : BitVec 16) (v : Byte),
    (i.toNat ≥ s.params.size → ∃ t, exec (.writeb i v) s = .next t ∧ FailedWith .range s t) ∧
    (i.toNat < s.params.size → ∃ t, exec (.writeb i v) s = .next t ∧
      Memory.read t.fb i.toNat = v ∧ (∀ a, a ≠ i.toNat → Memory.read t.fb a = Memory.read s.fb a) ∧
      t.result = s.result ∧ Succeeded s t ∧ exec (.writeb i v) t = .next t)

/-- R51: XLATE and READB change only RESULT and STATUS; CLEAR, SETPX, WRITEB, READB and XLATE are idempotent; ROTR, ROTL,
VSCROLL and HSCROLL are not, in general. -/
def Obligations.IdempotentCommands : Prop :=
  (∀ (s t : State) (i : Instr), (∃ x y, i = .xlate x y) ∨ (∃ j, i = .readb j) → exec i s = .next t →
    t.fb = s.fb ∧ SameOutside s t) ∧
  (∀ (s t : State) (sel : BitVec 2), transact (.read sel) s = .next t →
    t.fb = s.fb ∧ t.result = s.result ∧ t.status = s.status ∧ t.params = s.params) ∧
  (∀ (s t : State) (i : Instr),
    i = .clear ∨ (∃ x y pen, i = .setpx x y pen) ∨ (∃ j v, i = .writeb j v) ∨ (∃ j, i = .readb j) ∨
      (∃ x y, i = .xlate x y) →
    exec i s = .next t → exec i t = .next t) ∧
  (∃ (s t u : State) (b r l : BitVec 16) (n : BitVec 3),
    exec (.rotr b r l n) s = .next t ∧ exec (.rotr b r l n) t = .next u ∧ u ≠ t) ∧
  (∃ (s t u : State) (b r l : BitVec 16) (n : BitVec 3),
    exec (.rotl b r l n) s = .next t ∧ exec (.rotl b r l n) t = .next u ∧ u ≠ t) ∧
  (∃ (s t u : State) (n : Int), exec (.vscroll n) s = .next t ∧ exec (.vscroll n) t = .next u ∧ u ≠ t) ∧
  (∃ (s t u : State) (n : Int), exec (.hscroll n) s = .next t ∧ exec (.hscroll n) t = .next u ∧ u ≠ t)

/-! ### The rotation unit -/

/-- R81: RotR moves the ring `s` places toward higher index, and equals the source's procedural form. -/
def Obligations.RotRMovesTheRingUp : Prop :=
  ∀ (r : List Byte) (s : Nat), r ≠ [] → 1 ≤ s → s ≤ 7 →
    (rotR r s).length = r.length ∧
    (∀ j, j < 8 * r.length → ringBit (rotR r s) ((j + s) % (8 * r.length)) = ringBit r j) ∧
    (∀ k, k < r.length → (rotR r s).getD k 0
      = (r.getD k 0 >>> s) ||| (r.getD (((k : Int) - 1) % (r.length : Int)).toNat 0 <<< (8 - s))) ∧
    rotRProcedural r s = rotR r s

/-- R82: RotL moves the ring `s` places toward lower index, and equals the mirrored procedural form. -/
def Obligations.RotLMovesTheRingDown : Prop :=
  ∀ (r : List Byte) (s : Nat), r ≠ [] → 1 ≤ s → s ≤ 7 →
    (rotL r s).length = r.length ∧
    (∀ j, j < 8 * r.length →
      ringBit (rotL r s) (((j : Int) - s) % (8 * (r.length : Int))).toNat = ringBit r j) ∧
    (∀ k, k < r.length → (rotL r s).getD k 0
      = (r.getD k 0 <<< s) ||| (r.getD ((k + 1) % r.length) 0 >>> (8 - s))) ∧
    rotLProcedural r s = rotL r s

/-- R85: the laws of the rotations: inverse, constant rows, composition, single byte, bit count. -/
def Obligations.RotationLaws : Prop :=
  ∀ (r : List Byte) (s : Nat), r ≠ [] → 1 ≤ s → s ≤ 7 →
    (rotL (rotR r s) s = r ∧ rotR (rotL r s) s = r) ∧
    ((∀ b ∈ r, b = 0x00) ∨ (∀ b ∈ r, b = 0xFF) → rotR r s = r ∧ rotL r s = r) ∧
    (∀ b, 1 ≤ b → b ≤ 7 →
      (∀ j, j < 8 * r.length →
        ringBit (rotR (rotR r s) b) ((j + (s + b)) % (8 * r.length)) = ringBit r j ∧
        ringBit (rotL (rotL r s) b) (((j : Int) - (s + b)) % (8 * (r.length : Int))).toNat = ringBit r j) ∧
      (s + b ≤ 7 → rotR (rotR r s) b = rotR r (s + b) ∧ rotL (rotL r s) b = rotL r (s + b))) ∧
    (r.length = 1 → rotR r s = rotL r (8 - s)) ∧
    (2 ≤ r.length → ∃ q : List Byte, q.length = r.length ∧ rotR q s ≠ rotL q (8 - s)) ∧
    (∀ j, j < 8 * r.length →
      ringBit (rotL (rotR r s) (8 - s)) (((j : Int) + (2 * s - 8)) % (8 * (r.length : Int))).toNat = ringBit r j) ∧
    (s ≠ 4 → ∃ q : List Byte, q.length = r.length ∧ rotL (rotR q s) (8 - s) ≠ q) ∧
    (bitCount (rotR r s) = bitCount r ∧ bitCount (rotL r s) = bitCount r)

/-- R83: ROTR: E_ARG, then E_RANGE, else the row becomes RotR of it and every other byte stays. -/
def Obligations.RotrRotatesTheRow : Prop :=
  (∀ w base stride len steps,
    decode w = .ok (.rotr base stride len steps) ↔ w = packWord 0x06 base stride len (0#5 ++ steps)) ∧
  ∀ (s : State) (base stride len : BitVec 16) (steps : BitVec 3),
    let d : RowDesc := { base := base.toNat, stride := stride.toNat, len := len.toNat }
    let badArg := steps = 0 ∨ len = 0 ∨ (2 ≤ len.toNat ∧ stride = 0)
    let outside := base.toNat + (len.toNat - 1) * stride.toNat ≥ s.params.size
    (badArg → ∃ t, exec (.rotr base stride len steps) s = .next t ∧ FailedWith .arg s t) ∧
    (¬ badArg → outside → ∃ t, exec (.rotr base stride len steps) s = .next t ∧ FailedWith .range s t) ∧
    (¬ badArg → ¬ outside → ∃ t, exec (.rotr base stride len steps) s = .next t ∧
      readRow d t.fb = rotR (readRow d s.fb) steps.toNat ∧
      FbSameOutside (fun a => ∃ k, k < len.toNat ∧ a = base.toNat + k * stride.toNat) s t ∧
      t.result = s.result ∧ Succeeded s t)

/-- R84: ROTL: the checks of ROTR, else the row becomes RotL of it and every other byte stays; on one byte it is ROTR by
8 - steps. -/
def Obligations.RotlRotatesTheRow : Prop :=
  (∀ w base stride len steps,
    decode w = .ok (.rotl base stride len steps) ↔ w = packWord 0x07 base stride len (0#5 ++ steps)) ∧
  (∀ (s : State) (base stride : BitVec 16) (steps : BitVec 3), steps ≠ 0 →
    exec (.rotl base stride 1 steps) s = exec (.rotr base stride 1 (BitVec.ofNat 3 (8 - steps.toNat))) s) ∧
  ∀ (s : State) (base stride len : BitVec 16) (steps : BitVec 3),
    let d : RowDesc := { base := base.toNat, stride := stride.toNat, len := len.toNat }
    let badArg := steps = 0 ∨ len = 0 ∨ (2 ≤ len.toNat ∧ stride = 0)
    let outside := base.toNat + (len.toNat - 1) * stride.toNat ≥ s.params.size
    (badArg → ∃ t, exec (.rotl base stride len steps) s = .next t ∧ FailedWith .arg s t) ∧
    (¬ badArg → outside → ∃ t, exec (.rotl base stride len steps) s = .next t ∧ FailedWith .range s t) ∧
    (¬ badArg → ¬ outside → ∃ t, exec (.rotl base stride len steps) s = .next t ∧
      readRow d t.fb = rotL (readRow d s.fb) steps.toNat ∧
      FbSameOutside (fun a => ∃ k, k < len.toNat ∧ a = base.toNat + k * stride.toNat) s t ∧
      t.result = s.result ∧ Succeeded s t)

/-! ### The scroll controller -/

/-- R110: RingRot moves the ring `n` places, for every integer `n`; for small `n` it is RotR or RotL, and a whole turn is
the identity. -/
def Obligations.RingRotMovesTheRing : Prop :=
  ∀ (r : List Byte) (n : Int), r ≠ [] →
    (ringRot r n).length = r.length ∧
    (∀ j, j < 8 * r.length →
      ringBit (ringRot r n) (((j : Int) + n) % (8 * (r.length : Int))).toNat = ringBit r j) ∧
    (1 ≤ n → n ≤ 7 → ringRot r n = rotR r n.toNat) ∧
    (-7 ≤ n → n ≤ -1 → ringRot r n = rotL r (-n).toNat) ∧
    (n % (8 * (r.length : Int)) = 0 → ringRot r n = r)

/-- R111: VSCROLL takes any count, makes every column strip RingRot of itself, and moves pixel (x, y) to
(x, (y + n) mod HEIGHT); a whole number of turns changes no byte. -/
def Obligations.VscrollMovesPixelsVertically : Prop :=
  (∀ w n, decode w = .ok (.vscroll n) ↔ ∃ a : BitVec 16, w = packWord 0x08 a 0 0 0 ∧ n = a.toInt) ∧
  ∀ (s : State) (n : Int), ∃ t, exec (.vscroll n) s = .next t ∧
    (∀ c, c < s.params.columns →
      readRow (columnStrip s.params c) t.fb = ringRot (readRow (columnStrip s.params c) s.fb) n) ∧
    FbSameOutside (fun a => a < s.params.size) s t ∧
    (∀ x y, x < s.params.width → y < s.params.height →
      Memory.pixel t.params t.fb x (((y : Int) + n) % (s.params.height : Int)).toNat
        = Memory.pixel s.params s.fb x y) ∧
    (n % (8 * (s.params.pages : Int)) = 0 → ∀ a, Memory.read t.fb a = Memory.read s.fb a) ∧
    t.result = s.result ∧ Succeeded s t

/-- R112: HSCROLL takes any count and moves whole bytes within each page, by `n mod COLUMNS` and in the direction of
HSCROLL_SENSE; a whole number of turns changes no byte. -/
def Obligations.HscrollMovesColumns : Prop :=
  (∀ w n, decode w = .ok (.hscroll n) ↔ ∃ a : BitVec 16, w = packWord 0x09 a 0 0 0 ∧ n = a.toInt) ∧
  ∀ (s : State) (n : Int), ∃ t, exec (.hscroll n) s = .next t ∧
    (∀ g c, g < s.params.pages → c < s.params.columns →
      Memory.read t.fb (g * s.params.columns + c) = Memory.read s.fb (g * s.params.columns +
        (match s.params.hscrollSense with
          | .frontToBack => ((c : Int) + n % (s.params.columns : Int)) % (s.params.columns : Int)
          | .backToFront => ((c : Int) - n % (s.params.columns : Int)) % (s.params.columns : Int)).toNat)) ∧
    FbSameOutside (fun a => a < s.params.size) s t ∧
    (∀ x y, x < s.params.width → y < s.params.height →
      Memory.pixel t.params t.fb
          (match s.params.hscrollSense with
            | .frontToBack => ((x : Int) - n) % (s.params.width : Int)
            | .backToFront => ((x : Int) + n) % (s.params.width : Int)).toNat y
        = Memory.pixel s.params s.fb x y) ∧
    (n % (s.params.columns : Int) = 0 → ∀ a, Memory.read t.fb a = Memory.read s.fb a) ∧
    t.result = s.result ∧ Succeeded s t

/-- R113 laws 1 and 2 for VSCROLL: two scrolls restore every FB exactly when their sum is a whole number of turns, and
equal one scroll by any count congruent to their sum. -/
def Obligations.VscrollsCompose : Prop :=
  (∀ (p : Params) (a b : Int), p.legal →
    ((∀ s t u : State, s.params = p → exec (.vscroll a) s = .next t → exec (.vscroll b) t = .next u →
        ∀ i, Memory.read u.fb i = Memory.read s.fb i) ↔ (a + b) % (8 * (p.pages : Int)) = 0)) ∧
  ∀ (s t u v : State) (a b m : Int), m % (8 * (s.params.pages : Int)) = (a + b) % (8 * (s.params.pages : Int)) →
    exec (.vscroll a) s = .next t → exec (.vscroll b) t = .next u → exec (.vscroll m) s = .next v →
    ∀ i, Memory.read u.fb i = Memory.read v.fb i

/-- R113 laws 1 and 2 for HSCROLL, under either sense. -/
def Obligations.HscrollsCompose : Prop :=
  (∀ (p : Params) (a b : Int), p.legal →
    ((∀ s t u : State, s.params = p → exec (.hscroll a) s = .next t → exec (.hscroll b) t = .next u →
        ∀ i, Memory.read u.fb i = Memory.read s.fb i) ↔ (a + b) % (p.columns : Int) = 0)) ∧
  ∀ (s t u v : State) (a b m : Int), m % (s.params.columns : Int) = (a + b) % (s.params.columns : Int) →
    exec (.hscroll a) s = .next t → exec (.hscroll b) t = .next u → exec (.hscroll m) s = .next v →
    ∀ i, Memory.read u.fb i = Memory.read v.fb i

/-- R113 law 3: VSCROLL and HSCROLL commute; with FB in its canonical form the two states are equal. -/
def Obligations.ScrollsCommute : Prop :=
  ∀ (s t u t' u' : State) (a b : Int), s.fbInv →
    exec (.vscroll a) s = .next t → exec (.hscroll b) t = .next u →
    exec (.hscroll b) s = .next t' → exec (.vscroll a) t' = .next u' → u = u'

/-- R113 law 4: VSCROLL keeps the number of set pixels of every column, HSCROLL the multiset of bytes of every page. -/
def Obligations.ScrollsConservePixels : Prop :=
  (∀ (s t : State) (n : Int), exec (.vscroll n) s = .next t → ∀ c, c < s.params.columns →
    bitCount (readRow (columnStrip s.params c) t.fb) = bitCount (readRow (columnStrip s.params c) s.fb)) ∧
  ∀ (s t : State) (n : Int), exec (.hscroll n) s = .next t → ∀ g, g < s.params.pages →
    (readRow (pageSlice s.params g) t.fb).Perm (readRow (pageSlice s.params g) s.fb)

/-- R113 law 5: a buffer that is all 0x00 or all 0xFF is unchanged by every scroll. -/
def Obligations.ScrollsKeepConstantPictures : Prop :=
  ∀ (s t : State) (n : Int) (v : Byte), v = 0x00 ∨ v = 0xFF → (∀ a, a < s.params.size → Memory.read s.fb a = v) →
    exec (.vscroll n) s = .next t ∨ exec (.hscroll n) s = .next t →
    ∀ a, Memory.read t.fb a = Memory.read s.fb a

/-! ### The whole machine -/

/-- The reset state meets the invariant. (That the instance of State.reset is the panel is the model's choice: log entry
1.) -/
def Obligations.ResetStateMeetsTheInvariant : Prop :=
  State.reset.inv ∧ ∀ p : Params, p.legal → (State.resetOf p).inv

/-- Every step keeps the invariant: a legal instance, FB in its canonical form and inside SIZE, LAST_ERR at most 4, and a
failed last command shown in ANY_ERR. -/
def Obligations.StepKeepsTheInvariant : Prop :=
  ∀ s t : State, s.inv → step s = .next t → t.inv

/-- Only the commands R21 names as writers, and reset, change FB, and only when they succeed; the parameters of R5 never
change. -/
def Obligations.OnlyWritersChangeTheFramebuffer : Prop :=
  ∀ (s t : State) (tr : Transaction), transact tr s = .next t →
    t.params = s.params ∧
    (t.fb ≠ s.fb → tr = .reset ∨ ∃ w i, tr = .issue w ∧ decode w = .ok i ∧ t.status.lastErr = 0 ∧
      (i = .clear ∨ (∃ x y pen, i = .setpx x y pen) ∨ (∃ j v, i = .writeb j v) ∨ (∃ b r l n, i = .rotr b r l n) ∨
        (∃ b r l n, i = .rotl b r l n) ∨ (∃ n, i = .vscroll n) ∨ (∃ n, i = .hscroll n)))

/-- After R28 and R146: a command's outcome depends on FB, RESULT and the parameters alone: not on an earlier error, and
not on what the host has lined up or read. -/
def Obligations.EngineStateDecidesTheOutcome : Prop :=
  ∀ (s s' t t' : State) (w : CommandWord), s'.params = s.params → s'.fb = s.fb → s'.result = s.result →
    transact (.issue w) s = .next t → transact (.issue w) s' = .next t' →
    t'.fb = t.fb ∧ t'.result = t.result ∧ t'.status.lastErr = t.status.lastErr

/-- R167's observation: every run ends, its observation is the end state's FB, RESULT and STATUS with one value for each
of the run's own Reads, whatever was read before it, and each value is the register's at that point of the run. -/
def Obligations.RunsReturnTheValuesRead : Prop :=
  ∀ (ts : List Transaction) (s : State), ∃ t, runOf ts s = .next t ∧
    (observe t).fb = t.fb ∧ (observe t).result = readRegister 0 t ∧ (observe t).status = readRegister 1 t ∧
    (observe t).replies.length = ts.countP (fun tr => match tr with | .read _ => true | _ => false) ∧
    ∀ pre sel post, ts = pre ++ .read sel :: post → ∃ u, runOf pre s = .next u ∧
      (observe t).replies[(observe u).replies.length]? = some (readRegister sel u)

/-- R167's claim that no command failed: for a run without reset from a state with ANY_ERR = 0, ANY_ERR = 0 at the end
exactly when every command of the run left LAST_ERR = 0. -/
def Obligations.AnyErrTellsWhetherACommandFailed : Prop :=
  ∀ (ts : List Transaction) (s t : State), Transaction.reset ∉ ts → noCommandFailed s = true →
    runOf ts s = .next t →
    (noCommandFailed t = true ↔
      ∀ pre w post, ts = pre ++ .issue w :: post → ∃ u, runOf (pre ++ [.issue w]) s = .next u ∧ u.status.lastErr = 0)

/-! ### Host-side pseudo-instructions -/

/-- R120: the host issues an expansion's commands in order, reads STATUS.LAST_ERR after each, and stops at the first
error: what came before stays, the failing command has no effect, nothing after it is issued; a coordinate that does not
fit is E_RANGE with no command. -/
def Obligations.HostStopsAtTheFirstError : Prop :=
  (∀ (i : Instr) (s : State), i.wellFormed = true → ∃ t r,
    transact (.issue (encode i)) s = .next t ∧ runActions [.command i] s = .next r ∧
    r.state.fb = t.fb ∧ r.state.result = t.result ∧ r.state.status = t.status ∧
    (t.status.lastErr = 0 → r.error = none) ∧
    (t.status.lastErr ≠ 0 → r.error = some (.engine t.status.lastErr))) ∧
  (∀ (pen : Bool) (x y : Nat), 2 ^ 16 ≤ x ∨ 2 ^ 16 ≤ y → setpxAction pen x y = .unfit) ∧
  (∀ (actions : List HostAction) (s : State) (r : HostResult), runActions actions s = .next r → r.error ≠ none →
    ∃ pre a post r0, actions = pre ++ a :: post ∧ runActions pre s = .next r0 ∧ r0.error = none ∧
      r.state.fb = r0.state.fb ∧ r.state.result = r0.state.result ∧ r.bytes = r0.bytes ∧
      ((a = .unfit ∧ r.error = some (.engine ErrCode.range.code) ∧ r.state = r0.state) ∨
        (∃ i, a = .command i ∧ r.state.status.lastErr ≠ 0 ∧ r.error = some (.engine r.state.status.lastErr)))) ∧
  ∀ (pre post : List HostAction) (s : State) (r0 : HostResult), runActions pre s = .next r0 → r0.error = none →
    runActions (pre ++ post) s
      = andThen (runActions post r0.state) fun r => .next { r with bytes := r0.bytes ++ r.bytes }

/-- R121: HLINE draws `length` pixels to the right; in STRICT mode one that runs off the edge draws up to the edge and
fails with E_RANGE. -/
def Obligations.HlineDrawsALine : Prop :=
  ∀ (mono : Nat → BitVec 1) (s : State) (x y length : Nat) (pen : Bool), s.params.legal → y < s.params.height →
    (x + length ≤ s.params.width → ∃ r, runPseudo mono (.hline x y length pen) s = .next r ∧ r.error = none ∧
      ∀ x' y', x' < s.params.width → y' < s.params.height →
        Memory.pixel s.params r.state.fb x' y'
          = if y' = y ∧ x ≤ x' ∧ x' < x + length then pen else Memory.pixel s.params s.fb x' y') ∧
    (s.params.boundaryMode = .strict → x ≤ s.params.width → s.params.width < x + length →
      ∃ r, runPseudo mono (.hline x y length pen) s = .next r ∧ r.error = some (.engine 2) ∧
      ∀ x' y', x' < s.params.width → y' < s.params.height →
        Memory.pixel s.params r.state.fb x' y'
          = if y' = y ∧ x ≤ x' then pen else Memory.pixel s.params s.fb x' y')

/-- R122: VLINE draws `length` pixels downward; in STRICT mode one that runs off the edge draws up to the edge and fails
with E_RANGE. -/
def Obligations.VlineDrawsALine : Prop :=
  ∀ (mono : Nat → BitVec 1) (s : State) (x y length : Nat) (pen : Bool), s.params.legal → x < s.params.width →
    (y + length ≤ s.params.height → ∃ r, runPseudo mono (.vline x y length pen) s = .next r ∧ r.error = none ∧
      ∀ x' y', x' < s.params.width → y' < s.params.height →
        Memory.pixel s.params r.state.fb x' y'
          = if x' = x ∧ y ≤ y' ∧ y' < y + length then pen else Memory.pixel s.params s.fb x' y') ∧
    (s.params.boundaryMode = .strict → y ≤ s.params.height → s.params.height < y + length →
      ∃ r, runPseudo mono (.vline x y length pen) s = .next r ∧ r.error = some (.engine 2) ∧
      ∀ x' y', x' < s.params.width → y' < s.params.height →
        Memory.pixel s.params r.state.fb x' y'
          = if x' = x ∧ y ≤ y' then pen else Memory.pixel s.params s.fb x' y')

/-- R123: BOX issues `2*max(L,0) + 2*max(M,0)` commands and draws exactly the outline between its corners, both
included. -/
def Obligations.BoxDrawsTheOutline : Prop :=
  (∀ (x1 y1 x2 y2 : Nat) (pen : Bool), ((boxActions x1 y1 x2 y2 pen).length : Int)
    = 2 * max ((x2 : Int) - x1 + 1) 0 + 2 * max ((y2 : Int) - y1 + 1) 0) ∧
  ∀ (mono : Nat → BitVec 1) (s : State) (x1 y1 x2 y2 : Nat) (pen : Bool), s.params.legal →
    x1 ≤ x2 → x2 < s.params.width → y1 ≤ y2 → y2 < s.params.height →
    ∃ r, runPseudo mono (.box x1 y1 x2 y2 pen) s = .next r ∧ r.error = none ∧
      ∀ x y, x < s.params.width → y < s.params.height →
        Memory.pixel s.params r.state.fb x y
          = if x1 ≤ x ∧ x ≤ x2 ∧ y1 ≤ y ∧ y ≤ y2 ∧ (x = x1 ∨ x = x2 ∨ y = y1 ∨ y = y2) then pen
            else Memory.pixel s.params s.fb x y

/-- R124, for every MONO: an image that is too large issues nothing; one that fits where it is placed is drawn there,
black samples set and the others cleared, and no other pixel changes; a centered image always fits. -/
def Obligations.DrawimgDrawsTheImage : Prop :=
  ∀ (mono : Nat → BitVec 1) (s : State) (img : Image) (tx ty : Nat) (cx cy : Bool), s.params.legal → img.wf →
    let x0 := if cx then s.params.width / 2 - img.width / 2 else tx
    let y0 := if cy then s.params.height / 2 - img.height / 2 else ty
    (img.width > s.params.width ∨ img.height > s.params.height →
      runPseudo mono (.drawimg img tx ty cx cy) s = .next { state := s, error := some .imageTooLarge, bytes := [] }) ∧
    (img.width ≤ s.params.width → img.height ≤ s.params.height →
      (cx = true → x0 + img.width ≤ s.params.width) ∧ (cy = true → y0 + img.height ≤ s.params.height) ∧
      (x0 + img.width ≤ s.params.width → y0 + img.height ≤ s.params.height →
        ∃ r, runPseudo mono (.drawimg img tx ty cx cy) s = .next r ∧ r.error = none ∧
          ∀ x y, x < s.params.width → y < s.params.height →
            Memory.pixel s.params r.state.fb x y
              = if x0 ≤ x ∧ x < x0 + img.width ∧ y0 ≤ y ∧ y < y0 + img.height then
                  mono (img.sample (x - x0) (y - y0)) == 0
                else Memory.pixel s.params s.fb x y))

/-- R125: DUMP reads every byte, changes no byte, and renders HEIGHT lines of WIDTH characters in which line `y`,
character `x` shows pixel (x, y), each line ended by a newline. -/
def Obligations.DumpShowsEveryPixel : Prop :=
  ∀ (mono : Nat → BitVec 1) (s : State) (unset set : Char), s.params.legal →
    ∃ r, runPseudo mono (.dump unset set) s = .next r ∧ r.error = none ∧ r.state.fb = s.fb ∧
      r.bytes = (List.range s.params.size).map (Memory.read s.fb) ∧
      (dumpText s.params r.bytes unset set).length = s.params.height * (s.params.width + 1) ∧
      ∀ y, y < s.params.height →
        (∀ x, x < s.params.width →
          (dumpText s.params r.bytes unset set)[y * (s.params.width + 1) + x]?
            = some (if Memory.pixel s.params s.fb x y then set else unset)) ∧
        (dumpText s.params r.bytes unset set)[y * (s.params.width + 1) + s.params.width]? = some '\n'

/-- R126: STRIPR and STRIPL move the pixels of one column down or up by `steps` rows, circularly, and no other column; a
column outside the buffer is E_RANGE. -/
def Obligations.StripMovesOneColumn : Prop :=
  ∀ (mono : Nat → BitVec 1) (s : State) (c : Nat) (steps : BitVec 3), s.params.legal → steps ≠ 0 →
    (c < s.params.columns → ∃ r l,
      runPseudo mono (.stripr c steps) s = .next r ∧ r.error = none ∧
      runPseudo mono (.stripl c steps) s = .next l ∧ l.error = none ∧
      ∀ x y, x < s.params.width → y < s.params.height →
        Memory.pixel s.params r.state.fb x (if x = c then (y + steps.toNat) % s.params.height else y)
          = Memory.pixel s.params s.fb x y ∧
        Memory.pixel s.params l.state.fb x
            (if x = c then (((y : Int) - steps.toNat) % (s.params.height : Int)).toNat else y)
          = Memory.pixel s.params s.fb x y) ∧
    (s.params.columns ≤ c → ∃ r l,
      runPseudo mono (.stripr c steps) s = .next r ∧ r.error = some (.engine 2) ∧ r.state.fb = s.fb ∧
      runPseudo mono (.stripl c steps) s = .next l ∧ l.error = some (.engine 2) ∧ l.state.fb = s.fb)

/-- R127: PAGER and PAGEL rotate the page slice of one page as one ring and change no other byte; a page outside the
buffer is E_RANGE. -/
def Obligations.PageSliceRotatesAsOneRing : Prop :=
  ∀ (mono : Nat → BitVec 1) (s : State) (g : Nat) (steps : BitVec 3), s.params.legal → steps ≠ 0 →
    (g < s.params.pages → ∃ r l,
      runPseudo mono (.pager g steps) s = .next r ∧ r.error = none ∧
      runPseudo mono (.pagel g steps) s = .next l ∧ l.error = none ∧
      readRow (pageSlice s.params g) r.state.fb = rotR (readRow (pageSlice s.params g) s.fb) steps.toNat ∧
      readRow (pageSlice s.params g) l.state.fb = rotL (readRow (pageSlice s.params g) s.fb) steps.toNat ∧
      FbSameOutside (fun a => g * s.params.columns ≤ a ∧ a < (g + 1) * s.params.columns) s r.state ∧
      FbSameOutside (fun a => g * s.params.columns ≤ a ∧ a < (g + 1) * s.params.columns) s l.state) ∧
    (s.params.pages ≤ g → ∃ r l,
      runPseudo mono (.pager g steps) s = .next r ∧ r.error = some (.engine 2) ∧ r.state.fb = s.fb ∧
      runPseudo mono (.pagel g steps) s = .next l ∧ l.error = some (.engine 2) ∧ l.state.fb = s.fb)
end

