-- ==== Sys2Proof/Laws/Decode.lean ====
section
/-! SUPPORT. The fields of a packed word, and that no two rows of the opcode map share a word (R63). -/

namespace Sys2Proof

@[simp] theorem opField_packWord (op : BitVec 8) (a b c : BitVec 16) (d : BitVec 8) :
    opField (packWord op a b c d) = op := by
  ext i hi
  simp only [opField, packWord, BitVec.getElem_extractLsb', BitVec.getLsbD_append]
  grind

@[simp] theorem a16Field_packWord (op : BitVec 8) (a b c : BitVec 16) (d : BitVec 8) :
    a16Field (packWord op a b c d) = a := by
  ext i hi
  simp only [a16Field, packWord, BitVec.getElem_extractLsb', BitVec.getLsbD_append]
  grind

@[simp] theorem b16Field_packWord (op : BitVec 8) (a b c : BitVec 16) (d : BitVec 8) :
    b16Field (packWord op a b c d) = b := by
  ext i hi
  simp only [b16Field, packWord, BitVec.getElem_extractLsb', BitVec.getLsbD_append]
  grind

@[simp] theorem c16Field_packWord (op : BitVec 8) (a b c : BitVec 16) (d : BitVec 8) :
    c16Field (packWord op a b c d) = c := by
  ext i hi
  simp only [c16Field, packWord, BitVec.getElem_extractLsb', BitVec.getLsbD_append]
  grind

@[simp] theorem d8Field_packWord (op : BitVec 8) (a b c : BitVec 16) (d : BitVec 8) :
    d8Field (packWord op a b c d) = d := by
  ext i hi
  simp only [d8Field, packWord, BitVec.getElem_extractLsb', BitVec.getLsbD_append]
  grind

/-- A word is its fields (R61). -/
theorem packWord_fields (w : CommandWord) :
    packWord (opField w) (a16Field w) (b16Field w) (c16Field w) (d8Field w) = w := by
  refine BitVec.eq_of_getLsbD_eq fun i hi => ?_
  simp only [opField, a16Field, b16Field, c16Field, d8Field, packWord, BitVec.getLsbD_append,
    BitVec.getLsbD_extractLsb']
  grind

theorem packWord_and (op op' : BitVec 8) (a a' b b' c c' : BitVec 16) (d d' : BitVec 8) :
    packWord op a b c d &&& packWord op' a' b' c' d'
      = packWord (op &&& op') (a &&& a') (b &&& b') (c &&& c') (d &&& d') := by
  refine BitVec.eq_of_getLsbD_eq fun i _ => ?_
  simp only [packWord, BitVec.getLsbD_and, BitVec.getLsbD_append]
  grind

theorem packWord_inj {op op' : BitVec 8} {a a' b b' c c' : BitVec 16} {d d' : BitVec 8} :
    packWord op a b c d = packWord op' a' b' c' d' ↔ op = op' ∧ a = a' ∧ b = b' ∧ c = c' ∧ d = d' := by
  constructor
  · intro h
    refine ⟨?_, ?_, ?_, ?_, ?_⟩
    · simpa using congrArg opField h
    · simpa using congrArg a16Field h
    · simpa using congrArg b16Field h
    · simpa using congrArg c16Field h
    · simpa using congrArg d8Field h
  · rintro ⟨rfl, rfl, rfl, rfl, rfl⟩; rfl

/-- No word belongs to two rows (R63): each pair of rows differs in a bit that both masks cover. -/
theorem opcodeRows_disjoint :
    opcodeRows.Pairwise fun r q => (r.pattern &&& q.mask &&& r.mask) ≠ (q.pattern &&& r.mask &&& q.mask) := by
  decide

/-- A word belongs to one row at most (R63). -/
theorem OpcodeRow.unique {r q : OpcodeRow} (hr : r ∈ opcodeRows) (hq : q ∈ opcodeRows) {w : CommandWord}
    (h : w &&& r.mask = r.pattern) (h' : w &&& q.mask = q.pattern) : r = q := by
  have he : (r.pattern &&& q.mask &&& r.mask) = (q.pattern &&& r.mask &&& q.mask) := by
    rw [← h, ← h']
    refine BitVec.eq_of_getLsbD_eq fun i _ => ?_
    simp only [BitVec.getLsbD_and]
    grind
  by_contra hne
  obtain ⟨i, hi, rfl⟩ := List.mem_iff_getElem.mp hr
  obtain ⟨j, hj, rfl⟩ := List.mem_iff_getElem.mp hq
  have hp := List.pairwise_iff_getElem.mp opcodeRows_disjoint
  rcases Nat.lt_trichotomy i j with hl | rfl | hl
  · exact hp i j hi hj hl he
  · exact hne rfl
  · exact hp j i hj hi hl he.symm

/-- A word that matches a row decodes to the row's command (R67). -/
theorem decode_of_row {w : CommandWord} {r : OpcodeRow} (hr : r ∈ opcodeRows) (h : w &&& r.mask = r.pattern) :
    decode w = .ok (r.operands w) := by
  unfold decode
  cases hf : opcodeRows.find? (fun r => r.encodes w) with
  | none =>
    have := List.find?_eq_none.mp hf r hr
    simp [OpcodeRow.encodes, h] at this
  | some q =>
    have hq : w &&& q.mask = q.pattern := by simpa [OpcodeRow.encodes] using List.find?_some hf
    rw [OpcodeRow.unique hr (List.mem_of_find?_eq_some hf) h hq]

end Sys2Proof
end

