-- ==== Sys2Proof/Laws/Memory.lean ====
section
/-! SUPPORT. The laws of the framebuffer's bytes: a read after a write, and that every operation keeps the canonical
form, in which equal reads make equal lists. -/

namespace Sys2Proof.Machine

@[simp] theorem Memory.read_nil (i : Nat) : Memory.read [] i = 0 := rfl

@[simp] theorem Memory.read_zero (i : Nat) : Memory.read Memory.zero i = 0 := rfl

theorem Memory.read_cons (a : Nat) (b : Byte) (rest : Memory) (i : Nat) :
    Memory.read ((a, b) :: rest) i = if a = i then b else Memory.read rest i := rfl

theorem Memory.read_insert (m : Memory) (i : Nat) (v : Byte) (j : Nat) :
    Memory.read (Memory.insert m i v) j = if j = i then v else Memory.read m j := by
  induction m with
  | nil => simp only [Memory.insert, Memory.read_cons, Memory.read_nil, eq_comm]
  | cons c rest ih =>
    obtain ⟨a, b⟩ := c
    simp only [Memory.insert]
    split
    · simp only [Memory.read_cons, eq_comm]
    · split
      · subst i; simp only [Memory.read_cons, eq_comm]; split <;> rfl
      · simp only [Memory.read_cons, ih]
        split
        · rw [if_neg (by omega)]
        · rfl

theorem Memory.read_erase (m : Memory) (i j : Nat) :
    Memory.read (Memory.erase m i) j = if j = i then 0 else Memory.read m j := by
  induction m with
  | nil => simp [Memory.erase]
  | cons c rest ih =>
    obtain ⟨a, b⟩ := c
    simp only [Memory.erase] at ih
    by_cases h : a = i
    · simp only [Memory.erase, List.filter_cons, h, bne_self_eq_false, Bool.false_eq_true, if_false, ih,
        Memory.read_cons]
      grind
    · simp only [Memory.erase, List.filter_cons, bne_iff_ne, ne_eq, h, not_false_eq_true, if_true, Memory.read_cons,
        ih]
      grind

/-- A read after a write: the byte written at its index, every other byte as before. -/
@[simp] theorem Memory.read_write (m : Memory) (i : Nat) (v : Byte) (j : Nat) :
    Memory.read (Memory.write m i v) j = if j = i then v else Memory.read m j := by
  unfold Memory.write
  split
  · subst v; exact Memory.read_erase m i j
  · exact Memory.read_insert m i v j

theorem Memory.mem_insert {m : Memory} {i : Nat} {v : Byte} {c : Host.Cell} (h : c ∈ Memory.insert m i v) :
    c = (i, v) ∨ c ∈ m := by
  induction m with
  | nil => simpa [Memory.insert] using h
  | cons d rest ih =>
    obtain ⟨a, b⟩ := d
    simp only [Memory.insert] at h
    split at h
    · simpa using h
    · split at h
      · simp only [List.mem_cons] at h ⊢; tauto
      · simp only [List.mem_cons] at h ⊢; tauto

theorem Memory.mem_write {m : Memory} {i : Nat} {v : Byte} {c : Host.Cell} (h : c ∈ Memory.write m i v) :
    c = (i, v) ∨ c ∈ m := by
  unfold Memory.write at h
  split at h
  · exact .inr (List.mem_of_mem_filter h)
  · exact Memory.mem_insert h

theorem Memory.insert_pairwise {m : Memory} {i : Nat} {v : Byte} (h : m.Pairwise (fun c d => c.1 < d.1)) :
    (Memory.insert m i v).Pairwise (fun c d => c.1 < d.1) := by
  induction m with
  | nil => simp [Memory.insert]
  | cons d rest ih =>
    obtain ⟨a, b⟩ := d
    rw [List.pairwise_cons] at h
    simp only [Memory.insert]
    split
    · rename_i hlt
      refine List.pairwise_cons.mpr ⟨fun c hc => ?_, List.pairwise_cons.mpr h⟩
      rcases List.mem_cons.mp hc with rfl | hc
      · exact hlt
      · exact Nat.lt_trans hlt (h.1 c hc)
    · split
      · subst i; exact List.pairwise_cons.mpr h
      · refine List.pairwise_cons.mpr ⟨fun c hc => ?_, ih h.2⟩
        rcases Memory.mem_insert hc with rfl | hc
        · simp only; omega
        · exact h.1 c hc

theorem Memory.zero_wf : Memory.wf Memory.zero := ⟨.nil, fun _ hc => absurd hc List.not_mem_nil⟩

/-- A write keeps the canonical form. -/
theorem Memory.write_wf {m : Memory} (h : Memory.wf m) (i : Nat) (v : Byte) : Memory.wf (Memory.write m i v) := by
  unfold Memory.write
  split
  · exact ⟨h.1.filter _, fun c hc => h.2 c (List.mem_of_mem_filter hc)⟩
  · rename_i hv
    refine ⟨Memory.insert_pairwise h.1, fun c hc => ?_⟩
    rcases Memory.mem_insert hc with rfl | hc
    · exact hv
    · exact h.2 c hc

theorem Memory.zero_inMap (size : Nat) : Memory.inMap size Memory.zero := by simp [Memory.zero]

/-- A write to an index of the map stays in the map. -/
theorem Memory.write_inMap {size : Nat} {m : Memory} (h : Memory.inMap size m) {i : Nat} (hi : i < size) (v : Byte) :
    Memory.inMap size (Memory.write m i v) := by
  intro c hc
  rcases Memory.mem_write hc with rfl | hc
  · exact hi
  · exact h c hc

/-- An index not in the map reads as 0. -/
theorem Memory.read_of_inMap {size : Nat} {m : Memory} (h : Memory.inMap size m) {i : Nat} (hi : size ≤ i) :
    Memory.read m i = 0 := by
  induction m with
  | nil => rfl
  | cons d rest ih =>
    obtain ⟨a, b⟩ := d
    have ha : a < size := h (a, b) List.mem_cons_self
    rw [Memory.read_cons, if_neg (by omega)]
    exact ih fun c hc => h c (List.mem_cons_of_mem _ hc)

theorem Memory.read_eq_zero_of_lt {m : Memory} {i : Nat} (h : ∀ c ∈ m, i < c.1) : Memory.read m i = 0 := by
  induction m with
  | nil => rfl
  | cons d rest ih =>
    obtain ⟨a, b⟩ := d
    have ha : i < a := h (a, b) List.mem_cons_self
    rw [Memory.read_cons, if_neg (by omega)]
    exact ih fun c hc => h c (List.mem_cons_of_mem _ hc)

/-- In the canonical form, framebuffers that read the same everywhere are the same list. -/
theorem Memory.wf_ext {m m' : Memory} (h : Memory.wf m) (h' : Memory.wf m')
    (he : ∀ i, Memory.read m i = Memory.read m' i) : m = m' := by
  induction m generalizing m' with
  | nil =>
    cases m' with
    | nil => rfl
    | cons d rest =>
      obtain ⟨a, b⟩ := d
      have := he a
      simp only [Memory.read_nil, Memory.read_cons, if_true] at this
      exact absurd this.symm (h'.2 (a, b) List.mem_cons_self)
  | cons d rest ih =>
    obtain ⟨a, b⟩ := d
    have hb : b ≠ 0 := h.2 (a, b) List.mem_cons_self
    have hr := List.pairwise_cons.mp h.1
    cases m' with
    | nil =>
      have := he a
      simp only [Memory.read_nil, Memory.read_cons, if_true] at this
      exact absurd this hb
    | cons d' rest' =>
      obtain ⟨a', b'⟩ := d'
      have hb' : b' ≠ 0 := h'.2 (a', b') List.mem_cons_self
      have hr' := List.pairwise_cons.mp h'.1
      have haa : a = a' := by
        rcases Nat.lt_trichotomy a a' with hlt | heq | hgt
        · have := he a
          rw [Memory.read_cons, if_pos rfl, Memory.read_cons, if_neg (by omega),
            Memory.read_eq_zero_of_lt fun c hc => Nat.lt_trans hlt (hr'.1 c hc)] at this
          exact absurd this hb
        · exact heq
        · have := he a'
          rw [Memory.read_cons, if_neg (by omega), Memory.read_cons, if_pos rfl,
            Memory.read_eq_zero_of_lt fun c hc => Nat.lt_trans hgt (hr.1 c hc)] at this
          exact absurd this.symm hb'
      subst haa
      have hbb : b = b' := by simpa [Memory.read_cons] using he a
      subst hbb
      congr 1
      refine ih ⟨hr.2, fun c hc => h.2 c (List.mem_cons_of_mem _ hc)⟩
        ⟨hr'.2, fun c hc => h'.2 c (List.mem_cons_of_mem _ hc)⟩ fun i => ?_
      by_cases hi : a = i
      · subst hi
        rw [Memory.read_eq_zero_of_lt hr.1, Memory.read_eq_zero_of_lt hr'.1]
      · simpa [Memory.read_cons, hi] using he i

/-- Writing the same byte twice is writing it once. -/
theorem Memory.write_write (m : Memory) (i : Nat) (v : Byte) :
    Memory.write (Memory.write m i v) i v = Memory.write m i v := by
  unfold Memory.write
  split
  · simp [Memory.erase, List.filter_filter]
  · induction m with
    | nil => simp [Memory.insert]
    | cons d rest ih =>
      obtain ⟨a, b⟩ := d
      simp only [Memory.insert]
      split
      · simp [Memory.insert]
      · split
        · simp [Memory.insert]
        · simp only [Memory.insert, ih]
          rw [if_neg (by omega), if_neg (by omega)]

end Sys2Proof.Machine
end

