-- ==== Sys2Proof/Laws/Rows.lean ====
section
/-! SUPPORT. The laws of rows: what reading and writing a row does to every byte, and that updating a valid row keeps the
canonical form and the map. -/

namespace Sys2Proof.Machine

@[simp] theorem length_readRow (d : RowDesc) (m : Memory) : (readRow d m).length = d.len := by
  simp [readRow]

theorem getElem_readRow (d : RowDesc) (m : Memory) (k : Nat) (h : k < (readRow d m).length) :
    (readRow d m)[k] = Memory.read m (d.index k) := by
  simp [readRow]

theorem getD_readRow (d : RowDesc) (m : Memory) (k : Nat) (h : k < d.len) (b : Byte) :
    (readRow d m).getD k b = Memory.read m (d.index k) := by
  rw [List.getD_eq_getElem _ _ (by simpa using h), getElem_readRow]

/-- A row reads the same in framebuffers that agree on its bytes. -/
theorem readRow_congr {d : RowDesc} {m m' : Memory}
    (h : ∀ k, k < d.len → Memory.read m (d.index k) = Memory.read m' (d.index k)) : readRow d m = readRow d m' := by
  simp only [readRow]
  exact List.map_congr_left fun k hk => h k (List.mem_range.mp hk)

@[simp] theorem length_rotR (r : List Byte) (s : Nat) : (rotR r s).length = r.length := by simp [rotR]

@[simp] theorem length_rotL (r : List Byte) (s : Nat) : (rotL r s).length = r.length := by simp [rotL]

/-- A byte that no place of the row names is not written. -/
theorem read_writeBytes_outside (stride : Nat) (row : List Byte) (i : Nat) (m : Memory) (a : Nat)
    (h : ∀ k, k < row.length → a ≠ i + k * stride) :
    Memory.read (writeBytes stride i row m) a = Memory.read m a := by
  induction row generalizing i m with
  | nil => rfl
  | cons b row ih =>
    rw [writeBytes, ih]
    · have := h 0 (by simp)
      rw [Memory.read_write, if_neg (by simpa using this)]
    · intro k hk
      have := h (k + 1) (by simpa using hk)
      rw [Nat.succ_mul] at this
      omega

/-- Byte `k` of the row lands at its place. -/
theorem read_writeBytes (stride : Nat) (row : List Byte) (i : Nat) (m : Memory) (k : Nat) (hk : k < row.length)
    (hs : 2 ≤ row.length → 1 ≤ stride) :
    Memory.read (writeBytes stride i row m) (i + k * stride) = row[k] := by
  induction row generalizing i m k with
  | nil => simp at hk
  | cons b row ih =>
    rw [writeBytes]
    cases k with
    | zero =>
      rw [read_writeBytes_outside, Memory.read_write, if_pos (by simp)]
      · rfl
      · intro j hj
        have h1 : 1 ≤ stride := hs (by simp only [List.length_cons]; omega)
        have := Nat.zero_le (j * stride)
        omega
    | succ k =>
      have := ih (i + stride) (Memory.write m i b) k (by simpa using hk)
        (fun h => hs (by simp only [List.length_cons]; omega))
      rw [List.getElem_cons_succ, ← this]
      congr 1
      rw [Nat.succ_mul]; omega

theorem read_writeRow_outside (d : RowDesc) (row : List Byte) (m : Memory) (a : Nat)
    (h : ∀ k, k < row.length → a ≠ d.index k) : Memory.read (writeRow d row m) a = Memory.read m a :=
  read_writeBytes_outside d.stride row d.base m a h

theorem read_writeRow (d : RowDesc) (row : List Byte) (m : Memory) (hlen : row.length = d.len)
    (hs : 2 ≤ d.len → 1 ≤ d.stride) (k : Nat) (hk : k < row.length) :
    Memory.read (writeRow d row m) (d.index k) = row[k] :=
  read_writeBytes d.stride row d.base m k hk (by rw [hlen]; exact hs)

/-- The row reads back as it was written. -/
theorem readRow_updateRow (f : List Byte → List Byte) (d : RowDesc) (m : Memory)
    (hf : (f (readRow d m)).length = d.len) (hs : 2 ≤ d.len → 1 ≤ d.stride) :
    readRow d (updateRow f d m) = f (readRow d m) := by
  apply List.ext_getElem
  · simp [hf]
  · intro k h1 h2
    rw [getElem_readRow, updateRow, read_writeRow d _ m hf hs k h2]

/-- Updating a row leaves every other byte alone. -/
theorem read_updateRow_outside (f : List Byte → List Byte) (d : RowDesc) (m : Memory)
    (hf : (f (readRow d m)).length = d.len) (a : Nat) (h : ∀ k, k < d.len → a ≠ d.index k) :
    Memory.read (updateRow f d m) a = Memory.read m a :=
  read_writeRow_outside d _ m a fun k hk => h k (hf ▸ hk)

/-- The bytes of a valid row lie in the map. -/
theorem RowDesc.index_lt {p : Params} {d : RowDesc} (h : d.valid p) {k : Nat} (hk : k < d.len) :
    d.index k < p.size := by
  have := Nat.mul_le_mul_right d.stride (Nat.le_sub_one_of_lt hk)
  have := h.2.2
  simp only [RowDesc.index]
  omega

theorem writeBytes_wf {m : Memory} (h : Memory.wf m) (stride i : Nat) (row : List Byte) :
    Memory.wf (writeBytes stride i row m) := by
  induction row generalizing i m with
  | nil => exact h
  | cons b row ih => exact ih (Memory.write_wf h i b) _

theorem writeBytes_inMap {size : Nat} {m : Memory} (h : Memory.inMap size m) (stride i : Nat) (row : List Byte)
    (hi : ∀ k, k < row.length → i + k * stride < size) : Memory.inMap size (writeBytes stride i row m) := by
  induction row generalizing i m with
  | nil => exact h
  | cons b row ih =>
    refine ih (Memory.write_inMap h (by simpa using hi 0 (by simp)) b) _ fun k hk => ?_
    have := hi (k + 1) (by simpa using hk)
    rw [Nat.succ_mul] at this
    omega

/-- Updating a row keeps the canonical form. -/
theorem updateRow_wf (f : List Byte → List Byte) (d : RowDesc) {m : Memory} (h : Memory.wf m) :
    Memory.wf (updateRow f d m) := writeBytes_wf h _ _ _

/-- Updating a row of the map stays in the map. -/
theorem updateRow_inMap (f : List Byte → List Byte) {d : RowDesc} {size : Nat} {m : Memory}
    (h : Memory.inMap size m) (hf : (f (readRow d m)).length = d.len) (hd : ∀ k, k < d.len → d.index k < size) :
    Memory.inMap size (updateRow f d m) :=
  writeBytes_inMap h _ _ _ fun k hk => hd k (hf ▸ hk)

/-! ### Rows updated one after another -/

section Rows

variable {ι : Type} (f : List Byte → List Byte) (row : ι → RowDesc)

/-- Bytes of no row stay. -/
theorem read_foldl_updateRow_outside (hf : ∀ r, (f r).length = r.length) (is : List ι) (m : Memory) (a : Nat)
    (h : ∀ i ∈ is, ∀ k, k < (row i).len → a ≠ (row i).index k) :
    Memory.read (is.foldl (fun m i => updateRow f (row i) m) m) a = Memory.read m a := by
  induction is generalizing m with
  | nil => rfl
  | cons i is ih =>
    rw [List.foldl_cons, ih _ fun j hj => h j (List.mem_cons_of_mem _ hj),
      read_updateRow_outside _ _ _ ((hf _).trans (length_readRow _ _)) a (h i List.mem_cons_self)]

/-- Updating rows that share no byte, one after another, updates each from its bytes before the first update (R50). -/
theorem readRow_foldl_updateRow (hf : ∀ r, (f r).length = r.length) (is : List ι) (m : Memory) (hn : is.Nodup)
    (hs : ∀ i ∈ is, 2 ≤ (row i).len → 1 ≤ (row i).stride)
    (hd : ∀ i ∈ is, ∀ j ∈ is, i ≠ j → ∀ k l, k < (row i).len → l < (row j).len → (row i).index k ≠ (row j).index l)
    {i : ι} (hi : i ∈ is) :
    readRow (row i) (is.foldl (fun m i => updateRow f (row i) m) m) = f (readRow (row i) m) := by
  induction is generalizing m with
  | nil => exact absurd hi List.not_mem_nil
  | cons j is ih =>
    have hn' := List.nodup_cons.mp hn
    rw [List.foldl_cons]
    by_cases hij : i ∈ is
    · have hne : i ≠ j := fun h => hn'.1 (h ▸ hij)
      rw [ih _ hn'.2 (fun k hk => hs k (List.mem_cons_of_mem _ hk))
        (fun k hk l hl => hd k (List.mem_cons_of_mem _ hk) l (List.mem_cons_of_mem _ hl)) hij]
      congr 1
      refine readRow_congr fun k hk => ?_
      exact read_updateRow_outside _ _ _ ((hf _).trans (length_readRow _ _)) _
        fun l hl => hd i hi j List.mem_cons_self hne k l hk hl
    · obtain rfl : i = j := (List.mem_cons.mp hi).resolve_right hij
      rw [← readRow_updateRow f (row i) m ((hf _).trans (length_readRow _ _)) (hs i List.mem_cons_self)]
      refine readRow_congr fun k hk => ?_
      exact read_foldl_updateRow_outside f row hf is _ _ fun l hl k' hk' =>
        hd i hi l (List.mem_cons_of_mem _ hl) (fun h => hij (h ▸ hl)) k k' hk hk'

end Rows

end Sys2Proof.Machine
end

