-- ==== Sys2Proof/Laws/State.lean ====
section
/-! SUPPORT. What each update of State leaves in each field. -/

namespace Sys2Proof.Machine

@[simp] theorem State.withFb_params (s : State) (m : Memory) : (s.withFb m).params = s.params := rfl
@[simp] theorem State.withFb_fb (s : State) (m : Memory) : (s.withFb m).fb = m := rfl
@[simp] theorem State.withFb_result (s : State) (m : Memory) : (s.withFb m).result = s.result := rfl
@[simp] theorem State.withFb_status (s : State) (m : Memory) : (s.withFb m).status = s.status := rfl
@[simp] theorem State.withFb_pending (s : State) (m : Memory) : (s.withFb m).pending = s.pending := rfl
@[simp] theorem State.withFb_replies (s : State) (m : Memory) : (s.withFb m).replies = s.replies := rfl

@[simp] theorem State.withResult_params (s : State) (r : RegWord) : (s.withResult r).params = s.params := rfl
@[simp] theorem State.withResult_fb (s : State) (r : RegWord) : (s.withResult r).fb = s.fb := rfl
@[simp] theorem State.withResult_result (s : State) (r : RegWord) : (s.withResult r).result = r := rfl
@[simp] theorem State.withResult_status (s : State) (r : RegWord) : (s.withResult r).status = s.status := rfl
@[simp] theorem State.withResult_pending (s : State) (r : RegWord) : (s.withResult r).pending = s.pending := rfl
@[simp] theorem State.withResult_replies (s : State) (r : RegWord) : (s.withResult r).replies = s.replies := rfl

@[simp] theorem State.withStatus_params (s : State) (st : Status) : (s.withStatus st).params = s.params := rfl
@[simp] theorem State.withStatus_fb (s : State) (st : Status) : (s.withStatus st).fb = s.fb := rfl
@[simp] theorem State.withStatus_result (s : State) (st : Status) : (s.withStatus st).result = s.result := rfl
@[simp] theorem State.withStatus_status (s : State) (st : Status) : (s.withStatus st).status = st := rfl
@[simp] theorem State.withStatus_pending (s : State) (st : Status) : (s.withStatus st).pending = s.pending := rfl
@[simp] theorem State.withStatus_replies (s : State) (st : Status) : (s.withStatus st).replies = s.replies := rfl

@[simp] theorem State.withPending_params (s : State) (ts : List Transaction) :
    (s.withPending ts).params = s.params := rfl
@[simp] theorem State.withPending_fb (s : State) (ts : List Transaction) : (s.withPending ts).fb = s.fb := rfl
@[simp] theorem State.withPending_result (s : State) (ts : List Transaction) :
    (s.withPending ts).result = s.result := rfl
@[simp] theorem State.withPending_status (s : State) (ts : List Transaction) :
    (s.withPending ts).status = s.status := rfl
@[simp] theorem State.withPending_pending (s : State) (ts : List Transaction) : (s.withPending ts).pending = ts := rfl
@[simp] theorem State.withPending_replies (s : State) (ts : List Transaction) :
    (s.withPending ts).replies = s.replies := rfl

@[simp] theorem State.withReplies_params (s : State) (rs : List RegWord) :
    (s.withReplies rs).params = s.params := rfl
@[simp] theorem State.withReplies_fb (s : State) (rs : List RegWord) : (s.withReplies rs).fb = s.fb := rfl
@[simp] theorem State.withReplies_result (s : State) (rs : List RegWord) :
    (s.withReplies rs).result = s.result := rfl
@[simp] theorem State.withReplies_status (s : State) (rs : List RegWord) :
    (s.withReplies rs).status = s.status := rfl
@[simp] theorem State.withReplies_pending (s : State) (rs : List RegWord) :
    (s.withReplies rs).pending = s.pending := rfl
@[simp] theorem State.withReplies_replies (s : State) (rs : List RegWord) : (s.withReplies rs).replies = rs := rfl

@[simp] theorem State.withPending_withPending (s : State) (ts us : List Transaction) :
    (s.withPending ts).withPending us = s.withPending us := rfl
@[simp] theorem State.withPending_self (s : State) : s.withPending s.pending = s := rfl

@[simp] theorem State.resetOf_params (p : Params) : (State.resetOf p).params = p := rfl
@[simp] theorem State.resetOf_fb (p : Params) : (State.resetOf p).fb = [] := rfl
@[simp] theorem State.resetOf_result (p : Params) : (State.resetOf p).result = 0 := rfl
@[simp] theorem State.resetOf_status (p : Params) :
    (State.resetOf p).status = { lastErr := 0, anyErr := false } := rfl
@[simp] theorem State.resetOf_pending (p : Params) : (State.resetOf p).pending = [] := rfl
@[simp] theorem State.resetOf_replies (p : Params) : (State.resetOf p).replies = [] := rfl

end Sys2Proof.Machine
end

