-- ==== Sys2Proof/Laws/Exec.lean ====
section
/-! SUPPORT. What the shared ends of a command do, and what a command can do at all. -/

namespace Sys2Proof.Machine

@[simp] theorem Status.failed_anyErr (e : ErrCode) : (Status.failed e).anyErr = true := rfl
@[simp] theorem Status.failed_lastErr (e : ErrCode) : (Status.failed e).lastErr = e.code := rfl
@[simp] theorem Status.succeeded_anyErr (st : Status) : st.succeeded.anyErr = st.anyErr := rfl
@[simp] theorem Status.succeeded_lastErr (st : Status) : st.succeeded.lastErr = 0 := rfl

theorem ErrCode.code_ne_zero (e : ErrCode) : e.code ≠ 0 := by cases e <;> decide

theorem ErrCode.code_le_four (e : ErrCode) : e.code.toNat ≤ 4 := by cases e <;> decide

theorem ErrCode.code_injective {e f : ErrCode} (h : e.code = f.code) : e = f := by
  cases e <;> cases f <;> first | rfl | exact absurd h (by decide)

theorem raiseError_eq (e : ErrCode) (s : State) : raiseError e s = .next (s.withStatus (Status.failed e)) := rfl

theorem complete_eq (s : State) : complete s = .next (s.withStatus s.status.succeeded) := rfl

/-- The next state of a successful command that wrote `m` to FB and `r` to RESULT. -/
def State.done (s : State) (m : Memory) (r : RegWord) : State :=
  ((s.withFb m).withResult r).withStatus s.status.succeeded

@[simp] theorem State.done_params (s : State) (m : Memory) (r : RegWord) : (s.done m r).params = s.params := rfl
@[simp] theorem State.done_fb (s : State) (m : Memory) (r : RegWord) : (s.done m r).fb = m := rfl
@[simp] theorem State.done_result (s : State) (m : Memory) (r : RegWord) : (s.done m r).result = r := rfl
@[simp] theorem State.done_status (s : State) (m : Memory) (r : RegWord) :
    (s.done m r).status = s.status.succeeded := rfl
@[simp] theorem State.done_pending (s : State) (m : Memory) (r : RegWord) : (s.done m r).pending = s.pending := rfl
@[simp] theorem State.done_replies (s : State) (m : Memory) (r : RegWord) : (s.done m r).replies = s.replies := rfl

theorem complete_withFb (s : State) (m : Memory) : complete (s.withFb m) = .next (s.done m s.result) := rfl

theorem complete_withResult (s : State) (r : RegWord) : complete (s.withResult r) = .next (s.done s.fb r) := rfl

/-- What a translation can answer: only a range error, or an index error in LEGACY_INCLUSIVE mode, or an index of the
map with its bit. -/
theorem translatePixel_error {p : Params} {x y : Nat} {e : ErrCode} (h : translatePixel p x y = .error e) :
    e = .range ∨ (e = .index ∧ p.boundaryMode = .legacyInclusive) := by
  unfold translatePixel at h
  split at h <;> split at h
  · simp_all
  · simp at h
  · simp_all
  · split at h <;> simp_all

theorem pixelIndex_lt_size {p : Params} {x y : Nat} (hx : x < p.width) (hy : y < p.height) :
    pixelIndex p x y < p.size := by
  simp only [Params.width, Params.height] at hx hy
  have h1 : y / 8 + 1 ≤ p.pages := by omega
  have h2 := Nat.mul_le_mul_right p.columns h1
  rw [Nat.succ_mul] at h2
  simp only [pixelIndex, Params.size]
  omega

theorem translatePixel_ok {p : Params} {x y idx bit : Nat} (h : translatePixel p x y = .ok (idx, bit)) :
    idx = pixelIndex p x y ∧ bit = pixelBit y ∧ idx < p.size := by
  unfold translatePixel at h
  split at h <;> split at h
  · simp at h
  · rename_i hr
    simp only [Except.ok.injEq, Prod.mk.injEq] at h
    obtain ⟨rfl, rfl⟩ := h
    exact ⟨rfl, rfl, pixelIndex_lt_size (by omega) (by omega)⟩
  · simp at h
  · split at h
    · simp at h
    · simp only [Except.ok.injEq, Prod.mk.injEq] at h
      obtain ⟨rfl, rfl⟩ := h
      exact ⟨rfl, rfl, by omega⟩

/-- What the checks of a rotation can answer. -/
theorem rotationError_some {p : Params} {d : RowDesc} {steps : Nat} {e : ErrCode}
    (h : rotationError p d steps = some e) : e = .arg ∨ e = .range := by
  unfold rotationError at h
  repeat' split at h
  all_goals simp_all

theorem rotationError_none {p : Params} {d : RowDesc} {steps : Nat} :
    rotationError p d steps = none ↔ 1 ≤ steps ∧ d.valid p := by
  unfold rotationError RowDesc.valid
  repeat' split
  all_goals simp only [reduceCtorEq, false_iff, true_iff]
  all_goals omega

/-- What a command does: it fails and changes STATUS alone, or it succeeds, with a new FB or a new RESULT or neither. -/
theorem exec_cases (i : Instr) (s : State) :
    (∃ e, exec i s = .next (s.withStatus (Status.failed e))) ∨ (∃ m r, exec i s = .next (s.done m r)) := by
  cases i with
  | clear => exact .inr ⟨_, _, complete_withFb _ _⟩
  | setpx x y pen =>
    simp only [exec, execSetpx]
    split
    · exact .inl ⟨_, rfl⟩
    · exact .inr ⟨_, _, complete_withFb _ _⟩
  | xlate x y =>
    simp only [exec, execXlate]
    split
    · exact .inl ⟨_, rfl⟩
    · exact .inr ⟨_, _, complete_withResult _ _⟩
  | readb i =>
    simp only [exec, execReadb]
    split
    · exact .inl ⟨_, rfl⟩
    · exact .inr ⟨_, _, complete_withResult _ _⟩
  | writeb i v =>
    simp only [exec, execWriteb]
    split
    · exact .inl ⟨_, rfl⟩
    · exact .inr ⟨_, _, complete_withFb _ _⟩
  | rotr base stride len steps =>
    simp only [exec, execRotr, rotateRow]
    split
    · exact .inl ⟨_, rfl⟩
    · exact .inr ⟨_, _, complete_withFb _ _⟩
  | rotl base stride len steps =>
    simp only [exec, execRotl, rotateRow]
    split
    · exact .inl ⟨_, rfl⟩
    · exact .inr ⟨_, _, complete_withFb _ _⟩
  | vscroll n => exact .inr ⟨_, _, complete_withFb _ _⟩
  | hscroll n => exact .inr ⟨_, _, complete_withFb _ _⟩

end Sys2Proof.Machine
end

