-- ==== Sys2Proof/Laws/PerInstr.lean ====
section
/-! SUPPORT. Per instruction: the word the encoder writes belongs to the row of the opcode map that reads it back (R63). -/

namespace Sys2Proof.Laws.EncodeMatchesRow

/-- The row of a command in the opcode map, by its place in the table. -/
def rowNumber : Instr → Nat
  | .clear        => 0
  | .setpx _ _ _  => 1
  | .xlate _ _    => 2
  | .readb _      => 3
  | .writeb _ _   => 4
  | .rotr _ _ _ _ => 5
  | .rotl _ _ _ _ => 6
  | .vscroll _    => 7
  | .hscroll _    => 8

/-- The encoder's word matches the command's row of R63. -/
def Statement (i : Instr) : Prop :=
  ∃ r, opcodeRows[rowNumber i]? = some r ∧ encode i &&& r.mask = r.pattern

/-- A packed word under a packed mask, field by field. -/
theorem masked {op op' : BitVec 8} {a a' b b' c c' : BitVec 16} {d d' : BitVec 8} {mask pattern : CommandWord}
    (hm : mask = packWord op' a' b' c' d')
    (hp : pattern = packWord (op &&& op') (a &&& a') (b &&& b') (c &&& c') (d &&& d')) :
    packWord op a b c d &&& mask = pattern := by
  rw [hm, hp, packWord_and]

theorem clear : Statement .clear := ⟨_, rfl, by decide⟩

theorem setpx (x y : BitVec 16) (pen : Bool) : Statement (.setpx x y pen) :=
  ⟨_, rfl, masked (op' := 0xFF) (a' := 0) (b' := 0) (c' := 0xFFFF) (d' := 0xFE) (by decide)
    (by simp only [opcodeOf, BitVec.ofNat_eq_ofNat, BitVec.and_zero]; cases pen <;> decide)⟩

theorem xlate (x y : BitVec 16) : Statement (.xlate x y) :=
  ⟨_, rfl, masked (op' := 0xFF) (a' := 0) (b' := 0) (c' := 0xFFFF) (d' := 0xFF) (by decide)
    (by simp only [opcodeOf, BitVec.ofNat_eq_ofNat, BitVec.and_zero]; decide)⟩

theorem readb (i : BitVec 16) : Statement (.readb i) :=
  ⟨_, rfl, masked (op' := 0xFF) (a' := 0) (b' := 0xFFFF) (c' := 0xFFFF) (d' := 0xFF) (by decide)
    (by simp only [opcodeOf, BitVec.ofNat_eq_ofNat, BitVec.and_zero]; decide)⟩

theorem writeb (i : BitVec 16) (v : Byte) : Statement (.writeb i v) :=
  ⟨_, rfl, masked (op' := 0xFF) (a' := 0) (b' := 0xFFFF) (c' := 0xFFFF) (d' := 0) (by decide)
    (by simp only [opcodeOf, BitVec.ofNat_eq_ofNat, BitVec.and_zero]; decide)⟩

/-- The reserved bits of a rotation's D8 field are 0 (R64). -/
theorem steps_reserved (steps : BitVec 3) : (0#5 ++ steps) &&& 0xF8#8 = 0 := by
  revert steps; decide

theorem rotr (base stride len : BitVec 16) (steps : BitVec 3) : Statement (.rotr base stride len steps) :=
  ⟨_, rfl, masked (op' := 0xFF) (a' := 0) (b' := 0) (c' := 0) (d' := 0xF8) (by decide)
    (by simp only [opcodeOf, BitVec.ofNat_eq_ofNat, BitVec.and_zero, steps_reserved]; decide)⟩

theorem rotl (base stride len : BitVec 16) (steps : BitVec 3) : Statement (.rotl base stride len steps) :=
  ⟨_, rfl, masked (op' := 0xFF) (a' := 0) (b' := 0) (c' := 0) (d' := 0xF8) (by decide)
    (by simp only [opcodeOf, BitVec.ofNat_eq_ofNat, BitVec.and_zero, steps_reserved]; decide)⟩

theorem vscroll (n : Int) : Statement (.vscroll n) :=
  ⟨_, rfl, masked (op' := 0xFF) (a' := 0) (b' := 0xFFFF) (c' := 0xFFFF) (d' := 0xFF) (by decide)
    (by simp only [opcodeOf, BitVec.ofNat_eq_ofNat, BitVec.and_zero]; decide)⟩

theorem hscroll (n : Int) : Statement (.hscroll n) :=
  ⟨_, rfl, masked (op' := 0xFF) (a' := 0) (b' := 0xFFFF) (c' := 0xFFFF) (d' := 0xFF) (by decide)
    (by simp only [opcodeOf, BitVec.ofNat_eq_ofNat, BitVec.and_zero]; decide)⟩

end Sys2Proof.Laws.EncodeMatchesRow
end

