-- ==== Sys2Proof/Laws/Registers.lean ====
section
/-! SUPPORT. The fields of the register words (R22 to R25), bit by bit. -/

namespace Sys2Proof.Machine

theorem Status.getLsbD_word (st : Status) (i : Nat) :
    st.word.getLsbD i = if i < 4 then st.lastErr.getLsbD i else if i = 4 then st.anyErr else false := by
  simp only [Status.word, BitVec.getLsbD_append, BitVec.getLsbD_ofBool, BitVec.getLsbD_zero]
  grind

theorem getLsbD_geometryWord (p : Params) (i : Nat) :
    (geometryWord p).getLsbD i
      = if i < 16 then (BitVec.ofNat 16 p.pages).getLsbD i else (BitVec.ofNat 16 p.columns).getLsbD (i - 16) := by
  simp only [geometryWord, BitVec.getLsbD_append]

theorem getLsbD_configWord (p : Params) (i : Nat) :
    (configWord p).getLsbD i
      = if i = 0 then decide (p.boundaryMode = .legacyInclusive)
        else if i = 1 then decide (p.hscrollSense = .backToFront) else false := by
  have h1 : boundaryModeBit p.boundaryMode = BitVec.ofBool (decide (p.boundaryMode = .legacyInclusive)) := by
    cases p.boundaryMode <;> rfl
  have h2 : hscrollSenseBit p.hscrollSense = BitVec.ofBool (decide (p.hscrollSense = .backToFront)) := by
    cases p.hscrollSense <;> rfl
  simp only [configWord, h1, h2, BitVec.getLsbD_append, BitVec.getLsbD_ofBool, BitVec.getLsbD_zero]
  grind

theorem getLsbD_translationWord (idx bit i : Nat) :
    (translationWord idx bit).getLsbD i
      = if i < 16 then (BitVec.ofNat 16 idx).getLsbD i
        else if i < 19 then (BitVec.ofNat 3 bit).getLsbD (i - 16) else false := by
  simp only [translationWord, BitVec.getLsbD_setWidth, BitVec.getLsbD_append]
  have := BitVec.getLsbD_of_ge (BitVec.ofNat 3 bit) (i - 16)
  grind

/-- The byte with one bit replaced (R91). -/
theorem getLsbD_penByte (b : Byte) (bit : Nat) (pen : Bool) (i : Nat) :
    (penByte b bit pen).getLsbD i = if i = bit ∧ i < 8 then pen else b.getLsbD i := by
  have hb := BitVec.getLsbD_of_ge b i
  have h1 : (1#8 <<< bit).getLsbD i = decide (i = bit ∧ i < 8) := by
    simp only [BitVec.getLsbD_shiftLeft, BitVec.getLsbD_one]
    grind
  have hff : (0xFF#8).getLsbD i = decide (i < 8) := by
    rw [show (0xFF#8) = BitVec.allOnes 8 from rfl, BitVec.getLsbD_allOnes]
  unfold penByte
  cases pen
  · simp only [Bool.false_eq_true, if_false, BitVec.getLsbD_and, BitVec.getLsbD_xor, h1, hff]
    grind
  · simp only [if_true, BitVec.getLsbD_or, h1]
    grind

end Sys2Proof.Machine
end

