-- ==== Sys2Proof/Laws/Scroll.lean ====
section
/-! SUPPORT. The rows of the scrolls: lengths, where column strips and page slices lie, and that no two of them share a
byte (R41, R45, R46). -/

namespace Sys2Proof.Machine

@[simp] theorem length_moveBytes (r : List Byte) (q : Int) : (moveBytes r q).length = r.length := by simp [moveBytes]

@[simp] theorem length_ringRot (r : List Byte) (n : Int) : (ringRot r n).length = r.length := by
  simp only [ringRot]; split <;> simp

@[simp] theorem length_hscrollSlice (sense : HscrollSense) (k : Int) (r : List Byte) :
    (hscrollSlice sense k r).length = r.length := by
  cases sense <;> simp [hscrollSlice]

/-- Page and column of an index determine it, and the other way round (R41). -/
theorem grid_injective {columns g c g' c' : Nat} (hc : c < columns) (hc' : c' < columns)
    (h : g * columns + c = g' * columns + c') : g = g' ∧ c = c' := by
  have hcc : c = c' := by
    have := congrArg (· % columns) h
    simpa [Nat.mod_eq_of_lt hc, Nat.mod_eq_of_lt hc', Nat.add_mod, Nat.mul_mod] using this
  subst hcc
  exact ⟨Nat.eq_of_mul_eq_mul_right (by omega : 0 < columns) (by omega), rfl⟩

theorem grid_lt_size {p : Params} {g c : Nat} (hg : g < p.pages) (hc : c < p.columns) : g * p.columns + c < p.size := by
  have := Nat.mul_le_mul_right p.columns (show g + 1 ≤ p.pages from hg)
  rw [Nat.succ_mul] at this
  show g * p.columns + c < p.pages * p.columns
  omega

theorem columnStrip_index (p : Params) (c k : Nat) : (columnStrip p c).index k = k * p.columns + c :=
  Nat.add_comm _ _

theorem pageSlice_index (p : Params) (g k : Nat) : (pageSlice p g).index k = g * p.columns + k := by
  simp [RowDesc.index, pageSlice]

theorem columnStrips_disjoint {p : Params} {c c' : Nat} (hc : c < p.columns) (hc' : c' < p.columns) (hne : c ≠ c')
    (k l : Nat) : (columnStrip p c).index k ≠ (columnStrip p c').index l := by
  rw [columnStrip_index, columnStrip_index]
  exact fun h => hne (grid_injective hc hc' h).2

theorem pageSlices_disjoint {p : Params} {g g' : Nat} (hne : g ≠ g') {k l : Nat} (hk : k < p.columns)
    (hl : l < p.columns) : (pageSlice p g).index k ≠ (pageSlice p g').index l := by
  rw [pageSlice_index, pageSlice_index]
  exact fun h => hne (grid_injective hk hl h).1

end Sys2Proof.Machine
end

