-- ==== Sys2Proof/Tests/Slice0.lean ====
section
/-! SUPPORT. The model's own tests. Expected values are those of spec/95_test_vectors.md (the T- and P- names), of the
worked encodings R72 and of the rules' own examples; none is taken from the model. Then one witness for every statement
of Certificates/Slice0/Obligations.lean that has hypotheses. -/

namespace Sys2Proof.Tests

set_option Elab.async false

open Sys2Proof.Machine

/-! ### Helpers -/

def chip (pages columns : Nat) (mode : BoundaryMode := .strict) (sense : HscrollSense := .frontToBack) : Params :=
  { pages := pages, columns := columns, boundaryMode := mode, hscrollSense := sense }

/-- The state after reset of `p` with `bytes` at the start of FB. -/
def filled (p : Params) (bytes : List Byte) : State := (State.resetOf p).withFb (writeBytes 1 0 bytes Memory.zero)

/-- The first `n` bytes of FB. -/
def firstBytes (n : Nat) (s : State) : List Byte := (List.range n).map (Memory.read s.fb)

/-- `o` is a next state that meets `p`. -/
def isNext {σ : Type} (o : Host.Outcome σ Fault Refusal) (p : σ → Bool) : Bool :=
  match o with
  | .next t => p t
  | .fault _ => false
  | .refused _ => false

theorem next_of {σ : Type} {o : Host.Outcome σ Fault Refusal} {p : σ → Prop} [DecidablePred p]
    (h : isNext o (fun t => decide (p t)) = true) : ∃ t, o = .next t ∧ p t := by
  cases o with
  | next t => exact ⟨t, rfl, by simpa [isNext] using h⟩
  | fault r => simp [isNext] at h
  | refused r => simp [isNext] at h

/-- STATUS, RESULT and the bytes of a small FB after the command word `w`. -/
def after (w : CommandWord) (s : State) (status : RegWord) (result : RegWord) (bytes : List Byte) : Bool :=
  isNext (transact (.issue w) s) fun t =>
    t.status.word == status && t.result == result && firstBytes bytes.length t == bytes

/-- STATUS, RESULT and the whole of FB (its non-zero bytes) after the command word `w`. -/
def afterFb (w : CommandWord) (s : State) (status : RegWord) (result : RegWord) (fb : Memory) : Bool :=
  isNext (transact (.issue w) s) fun t => t.status.word == status && t.result == result && t.fb == fb

def asmWord (line : String) : Option CommandWord := assembleWord line.toList

/-! ### Well-formedness: the step count of format S is -32768..32767 (R62, R69) -/

theorem test_vscroll_count_above_is_refused : (Instr.vscroll 32768).wellFormed = false := by decide
theorem test_vscroll_count_below_is_refused : (Instr.vscroll (-32769)).wellFormed = false := by decide
theorem test_hscroll_count_above_is_refused : (Instr.hscroll 32768).wellFormed = false := by decide
theorem test_hscroll_count_below_is_refused : (Instr.hscroll (-32769)).wellFormed = false := by decide
theorem test_extreme_counts_are_well_formed :
    (Instr.vscroll 32767).wellFormed ∧ (Instr.vscroll (-32768)).wellFormed ∧ (Instr.hscroll 32767).wellFormed ∧
      (Instr.hscroll (-32768)).wellFormed := by decide

/-! ### Decoding: words of R72 and T-SCR written out as {OP, A16, B16, C16, D8} of R61 -/

theorem test_decode_clear :
    decode (0b00000001#8 ++ 0b0000000000000000#16 ++ 0b0000000000000000#16 ++ 0b0000000000000000#16 ++ 0b00000000#8)
      = .ok .clear := by decide
theorem test_decode_setpx :
    decode (0b00000010#8 ++ 0b0000000000000101#16 ++ 0b0000000000001101#16 ++ 0b0000000000000000#16 ++ 0b00000001#8)
      = .ok (.setpx 5 13 true) := by decide
theorem test_decode_xlate :
    decode (0b00000011#8 ++ 0b0000000001111111#16 ++ 0b0000000000111111#16 ++ 0b0000000000000000#16 ++ 0b00000000#8)
      = .ok (.xlate 127 63) := by decide
theorem test_decode_readb :
    decode (0b00000100#8 ++ 0b0000001110000000#16 ++ 0b0000000000000000#16 ++ 0b0000000000000000#16 ++ 0b00000000#8)
      = .ok (.readb 896) := by decide
theorem test_decode_writeb :
    decode (0b00000101#8 ++ 0b0000000000000010#16 ++ 0b0000000000000000#16 ++ 0b0000000000000000#16 ++ 0b11110000#8)
      = .ok (.writeb 2 240) := by decide
theorem test_decode_rotr :
    decode (0b00000110#8 ++ 0b0000000000000000#16 ++ 0b0000000000000001#16 ++ 0b0000000000000011#16 ++ 0b00000100#8)
      = .ok (.rotr 0 1 3 4) := by decide
theorem test_decode_rotl :
    decode (0b00000111#8 ++ 0b0000000000000000#16 ++ 0b0000000010000000#16 ++ 0b0000000000001000#16 ++ 0b00000001#8)
      = .ok (.rotl 0 128 8 1) := by decide
theorem test_decode_vscroll :
    decode (0b00001000#8 ++ 0b1000000000000000#16 ++ 0b0000000000000000#16 ++ 0b0000000000000000#16 ++ 0b00000000#8)
      = .ok (.vscroll (-32768)) := by decide
theorem test_decode_hscroll :
    decode (0b00001001#8 ++ 0b1111111111111101#16 ++ 0b0000000000000000#16 ++ 0b0000000000000000#16 ++ 0b00000000#8)
      = .ok (.hscroll (-3)) := by decide

/-- T-ENC-01 to T-ENC-03. -/
theorem test_unassigned_opcodes :
    [0x0000000000000000, 0x0A00000000000000, 0xFF00010002000304].map decode
      = [.error .unassignedOpcode, .error .unassignedOpcode, .error .unassignedOpcode] := by decide

/-- T-ENC-04 to T-ENC-13. -/
theorem test_reserved_bits :
    [0x0100000000000001, 0x0200000000000002, 0x0200000000000101, 0x0300000000000001, 0x0400000001000000,
        0x0500000000000100, 0x0600000001000109, 0x0800010001000000, 0x0900000000000001, 0x0600000000000008].map decode
      = List.replicate 10 (.error .reservedBits) := by decide +kernel

/-- T-ENC-13: the decode check comes first; steps = 0 and len = 0 are not looked at. -/
theorem test_illegal_comes_before_arg : after 0x0600000000000008 State.reset 0x11 0 [0] := by decide +kernel

theorem test_encode_matches_the_worked_word : encode (.hscroll (-3)) = 0x09FFFD0000000000 := by decide

theorem test_link_bytes : linkBytes 0x020005000D000001 = [0x02, 0x00, 0x05, 0x00, 0x0D, 0x00, 0x00, 0x01] := by decide

theorem test_short_link_is_truncated : decodeBytes [0x01, 0, 0, 0, 0, 0, 0] = .error .truncated := by decide

theorem test_table_word : decodeTableWord 64 0x0403800000000000 = some (.readb 896) := by decide

/-! ### The rotation functions -/

/-- T-ROT-01. -/
theorem test_rotate_one_byte :
    [1, 2, 3, 4, 5, 6, 7].map (rotR [0xB4]) = [[0x5A], [0x2D], [0x96], [0x4B], [0xA5], [0xD2], [0x69]] ∧
    [1, 2, 3, 4, 5, 6, 7].map (rotL [0xB4]) = [[0x69], [0xD2], [0xA5], [0x4B], [0x96], [0x2D], [0x5A]] := by decide

/-- T-ROT-07 and T-ROT-09, the second of which the reading that 90_conflicts.md C1 rejects would fail. -/
theorem test_rotate_rows :
    rotR [0x81, 0x00, 0xF0] 4 = [0x08, 0x10, 0x0F] ∧ rotL [0x00, 0x80, 0x00] 1 = [0x01, 0x00, 0x00] := by decide

/-! ### Commands, one step each -/

/-- T-FB-01, with an earlier error on record. -/
theorem test_clear : after 0x0100000000000000
    (((filled (chip 1 3) [1, 2, 3]).withStatus ⟨2, true⟩).withResult 7) 0x10 7 [0, 0, 0] := by decide +kernel

/-- T-FB-02's second row. -/
theorem test_setpx_sets : afterFb 0x020005000D000001 State.reset 0 0 [(133, 0x04)] := by decide +kernel

/-- T-FB-06. -/
theorem test_setpx_clears_one_bit : after 0x0200000003000000 (filled Params.panel [0xFF]) 0 0 [0xEF] := by
  decide +kernel

/-- T-LEG-07: x = WIDTH reaches the next page. -/
theorem test_setpx_legacy_alias :
    afterFb 0x0200800000000001 (filled (chip 8 128 .legacyInclusive) []) 0 0 [(128, 0x80)] := by decide +kernel

/-- T-FB-03's second row. -/
theorem test_xlate : afterFb 0x030005000D000000 State.reset 0 0x00020085 [] := by decide +kernel

/-- T-LEG-03: E_INDEX, RESULT stale. -/
theorem test_xlate_legacy_index :
    afterFb 0x0300800038000000 ((filled (chip 8 128 .legacyInclusive) []).withResult 0x00000380) 0x14 0x380 [] := by
  decide +kernel

/-- P4: the last byte of a 2 by 16 buffer. -/
theorem test_readb : afterFb 0x04001F0000000000 ((filled (chip 2 16) []).withFb [(31, 0x5A)]) 0 0x5A [(31, 0x5A)] := by
  decide +kernel

/-- T-FB-05's first row: RESULT stale. -/
theorem test_readb_range : afterFb 0x0404000000000000 (State.reset.withResult 0x3FF) 0x12 0x3FF [] := by decide +kernel

/-- T-FB-05's fourth row. -/
theorem test_writeb : after 0x05000000000000FF (State.reset.withStatus ⟨2, true⟩) 0x10 0 [0xFF, 0] := by decide +kernel

/-- T-FB-05's third row. -/
theorem test_writeb_range : afterFb 0x0504000000000001 State.reset 0x12 0 [] := by decide +kernel

/-- T-ROT-12's third row. -/
theorem test_rotr : after 0x0600000001000304 (filled Params.panel [0x81, 0x00, 0xF0, 0x55]) 0 0
    [0x08, 0x10, 0x0F, 0x55] := by decide +kernel

/-- T-ROT-12: rotr 0, 128, 9, 1 ends at 1024. -/
theorem test_rotr_range : after 0x0600000080000901 (filled Params.panel [0x10]) 0x12 0 [0x10] := by decide +kernel

/-- T-ROT-12's fourth row. -/
theorem test_rotl : after 0x0700000001000301 (filled Params.panel [0x08, 0x10, 0x0F]) 0 0 [0x10, 0x20, 0x1E] := by
  decide +kernel

/-- T-ROT-13: column strip 0, from page 0 to page 7. -/
theorem test_rotl_strip : afterFb 0x0700000080000802 (filled Params.panel [0x40]) 0 0 [(896, 0x01)] := by
  decide +kernel

/-- T-SCR-03. -/
theorem test_vscroll : after 0x0800010000000000 (filled (chip 2 2) [0x01, 0x00, 0x00, 0x80]) 0 0
    [0x00, 0x00, 0x80, 0x40] := by decide +kernel

/-- T-SCR-03 (-1) and, with a count of more than a turn, 9. -/
theorem test_vscroll_counts :
    after 0x08FFFF0000000000 (filled (chip 2 2) [0x01, 0x00, 0x00, 0x80]) 0 0 [0x02, 0x01, 0x00, 0x00] ∧
    after 0x0800090000000000 (filled (chip 2 2) [0x01, 0x00, 0x00, 0x80]) 0 0 [0x80, 0x40, 0x00, 0x00] := by
  decide +kernel

/-- T-SCR-03's last row: pages do not mix. -/
theorem test_hscroll_pages : after 0x0900010000000000 (filled (chip 2 2) [0x01, 0x02, 0x80, 0x40]) 0 0
    [0x02, 0x01, 0x40, 0x80] := by decide +kernel

/-- T-SCR-04: both senses, 32767 mod 4 = 3. -/
theorem test_hscroll_senses :
    after 0x097FFF0000000000 (filled (chip 1 4) [1, 2, 3, 4]) 0 0 [4, 1, 2, 3] ∧
    after 0x097FFF0000000000 (filled (chip 1 4 .strict .backToFront) [1, 2, 3, 4]) 0 0 [2, 3, 4, 1] := by
  decide +kernel

/-! ### The step, registers and reset -/

/-- The first step after reset of a word given by withFetchWord (log entry 5): T-FB-02's first row. -/
theorem test_fetched_word_runs :
    isNext (step (State.reset.withFetchWord 64 0x0200000000000001)) (fun t => t.fb == [(0, 0x80)]) := by decide +kernel

theorem test_step_with_nothing_pending : isNext (step State.reset) (fun t => t == State.reset) := by decide +kernel

/-- T-ST-02 and T-ST-03. -/
theorem test_constant_registers :
    readRegister 2 State.reset = 0x00800008 ∧ readRegister 2 (State.resetOf (chip 2 16)) = 0x00100002 ∧
    readRegister 2 (State.resetOf (chip 256 256)) = 0x01000100 ∧ readRegister 3 State.reset = 0 ∧
    readRegister 3 (State.resetOf (chip 8 128 .legacyInclusive)) = 1 ∧
    readRegister 3 (State.resetOf (chip 8 128 .strict .backToFront)) = 2 ∧
    readRegister 3 (State.resetOf (chip 8 128 .legacyInclusive .backToFront)) = 3 := by decide

/-- T-ST-01 and T-ST-04: Reset clears FB, RESULT and the sticky bit. -/
theorem test_reset :
    isNext (transact .reset (((filled (chip 1 2) [1, 2]).withStatus ⟨2, true⟩).withResult 9))
      (fun t => t.fb == [] && t.result == 0 && t.status.word == 0) := by decide +kernel

/-! ### The host's sequences and the assembler -/

/-- T-HOST-06's MONO, an example choice. -/
def monoExample (v : Nat) : BitVec 1 := if v < 128 then 0 else 1

/-- T-HOST-02, on two pages of four columns. -/
theorem test_vline :
    isNext (runPseudo monoExample (.vline 3 6 4 true) (filled (chip 2 4) []))
      (fun r => r.error == none && firstBytes 8 r.state == [0, 0, 0, 0x03, 0, 0, 0, 0xC0]) := by decide +kernel

/-- P6: a line that runs off the edge draws up to it and fails with E_RANGE. -/
theorem test_hline_partial :
    isNext (runPseudo monoExample (.hline 10 0 7 true) (filled (chip 2 16) []))
      (fun r => r.error == some (.engine 2) && r.state.status.word == 0x12 &&
        firstBytes 17 r.state
          == [0, 0, 0, 0, 0, 0, 0, 0, 0, 0, 0x80, 0x80, 0x80, 0x80, 0x80, 0x80, 0]) := by decide +kernel

/-- P2: 40 commands, and the bytes of the perimeter. -/
theorem test_box :
    (boxActions 0 0 9 9 true).length = 40 ∧
    isNext (runPseudo monoExample (.box 0 0 9 9 true) (filled (chip 2 16) []))
      (fun r => r.error == none && firstBytes 32 r.state
        == [0xFF, 0x80, 0x80, 0x80, 0x80, 0x80, 0x80, 0x80, 0x80, 0xFF, 0, 0, 0, 0, 0, 0,
            0xC0, 0x40, 0x40, 0x40, 0x40, 0x40, 0x40, 0x40, 0x40, 0xC0, 0, 0, 0, 0, 0, 0]) := by decide +kernel

/-- T-HOST-06, and T-HOST-07's refusal on a display of four columns. -/
theorem test_drawimg :
    isNext (runPseudo monoExample (.drawimg ⟨2, 1, [0, 255]⟩ 0 0 false false) (filled (chip 1 4) [0, 0x80]))
      (fun r => r.error == none && firstBytes 2 r.state == [0x80, 0x00]) ∧
    isNext (runPseudo monoExample (.drawimg ⟨5, 1, [0, 0, 0, 0, 0]⟩ 0 0 false false) (filled (chip 1 4) []))
      (fun r => r.error == some .imageTooLarge && r.state == filled (chip 1 4) []) := by decide +kernel

/-- T-HOST-05. -/
theorem test_dump :
    isNext (runPseudo monoExample (.dump '.' '#') (filled (chip 1 4) [0x00, 0x20, 0x00, 0x01]))
      (fun r => r.error == none && dumpText (chip 1 4) r.bytes '.' '#'
        == "....\n....\n.#..\n....\n....\n....\n....\n...#\n".toList) := by decide +kernel

/-- T-HOST-08, and R127's example. -/
theorem test_strip_and_page :
    isNext (runPseudo monoExample (.stripr 0 1) (filled Params.panel [0x80])) (fun r => r.state.fb == [(0, 0x40)]) ∧
    isNext (runPseudo monoExample (.stripr 128 1) (filled Params.panel [0x80]))
      (fun r => r.error == some (.engine 2)) ∧
    isNext (runPseudo monoExample (.pager 0 1) (filled (chip 1 2) [0x01, 0x80]))
      (fun r => firstBytes 2 r.state == [0x00, 0xC0]) := by decide +kernel

/-- R69: what the assembler refuses, and the arguments it leaves to the engine. -/
theorem test_assembler_ranges :
    asmWord "xlate -1, 0" = none ∧ asmWord "vscroll 32768" = none ∧ asmWord "rotr 0, 1, 3, 8" = none ∧
    asmWord "writeb 0, 256" = none ∧ asmWord "setpx 1, 2, 2" = none ∧ asmWord "SETPX 1, 2" = none ∧
    asmWord "setpx 0, 0 ; pen is 1" = some 0x0200000000000001 ∧
    asmWord "rotr 1000, 0, 0, 0" = some 0x0603E80000000000 := by decide +kernel

/-- A host with one image. -/
def gallery (name : List Char) : Option Image := if name = "logo".toList then some ⟨2, 1, [0, 255]⟩ else none

/-- R70: the text of pseudo-instructions. -/
theorem test_assembler_pseudo :
    assembleLine gallery "hline 0, 9, 3".toList = .ok (.pseudo (.hline 0 9 3 true)) ∧
    assembleLine gallery "stripl 3, 2".toList = .ok (.pseudo (.stripl 3 2)) ∧
    assembleLine gallery "dump".toList = .ok (.pseudo (.dump '.' '#')) := by decide +kernel

/-- R124: the offsets default to 0 and the centering flags to false. -/
theorem test_drawimg_defaults :
    assembleLine gallery "drawimg logo".toList = .ok (.pseudo (.drawimg ⟨2, 1, [0, 255]⟩ 0 0 false false)) ∧
    assembleLine gallery "drawimg logo, 3, 4, 0, 1".toList
      = .ok (.pseudo (.drawimg ⟨2, 1, [0, 255]⟩ 3 4 false true)) ∧
    assembleLine gallery "drawimg lego".toList = .error .unknownImage := by decide +kernel

/-- R167: a run from a state with an earlier answer observes its own Read alone. -/
theorem test_observation_is_the_runs_own :
    isNext (runOf [.read 2] (State.reset.withReplies [7]))
      (fun t => (observe t).replies == [0x00800008]) := by decide +kernel

/-! ### Witnesses: states and operands that meet the hypotheses of each statement, clause by clause -/

/-- Two pages of four columns, filled. -/
def grid : State := filled (chip 2 4) [0x01, 0x02, 0x80, 0xFF, 0x10, 0, 0x7E, 0x40]

/-- The same in LEGACY_INCLUSIVE mode with the other scroll sense. -/
def legacyGrid : State :=
  filled (chip 2 4 .legacyInclusive .backToFront) [0x01, 0x02, 0x80, 0xFF, 0x10, 0, 0x7E, 0x40]

theorem witness_ResetErasesTheCommandBeforeIt :
    ∃ t, transact (.issue 0x05000000000000FF) grid = .next t ∧ t.fb ≠ grid.fb := next_of (by decide +kernel)

/-- The smallest and the largest legal instance, and each kind of transaction. -/
theorem witness_GeometryReadsTheDimensions :
    (chip 1 1).legal ∧ (chip 256 256).legal ∧
    (∃ t, transact (.issue 0x0800010000000000) (filled (chip 1 1) [3]) = .next t ∧ t.fb = [(0, 0x81)]) ∧
    (∃ t, transact (.read 2) grid = .next t ∧ t.replies = [0x00040002]) ∧
    ∃ t, transact .reset grid = .next t ∧ t.fb = [] :=
  ⟨by decide, by decide, next_of (by decide +kernel), next_of (by decide +kernel), next_of (by decide +kernel)⟩

theorem witness_ConfigReadsTheModes :
    legacyGrid.params.boundaryMode = .legacyInclusive ∧ legacyGrid.params.hscrollSense = .backToFront ∧
    ∃ t, transact (.issue 0) legacyGrid = .next t ∧ t.status.lastErr = 1 :=
  ⟨by decide, by decide, next_of (by decide +kernel)⟩

theorem witness_StatusFieldsAndTheirWriters :
    (∃ t, transact (.read 1) (grid.withStatus ⟨4, true⟩) = .next t ∧ t.replies = [0x14]) ∧
    ∃ t, transact .reset (grid.withStatus ⟨4, true⟩) = .next t ∧ t.status = ⟨0, false⟩ :=
  ⟨next_of (by decide +kernel), next_of (by decide +kernel)⟩

theorem witness_HostReadsTheSelectedRegister :
    ∃ t, transact (.issue 0x0400030000000000) grid = .next t ∧ readRegister 0 t = 0xFF := next_of (by decide +kernel)

/-- A failed command, a translation, a byte, and a command with no answer. -/
theorem witness_ResultHoldsTheLastAnswer :
    (∃ t, transact (.issue 0x0400080000000000) grid = .next t ∧ t.status.lastErr ≠ 0) ∧
    (∃ t, transact (.issue 0x030003000F000000) grid = .next t ∧ decode 0x030003000F000000 = .ok (.xlate 3 15) ∧
      t.status.lastErr = 0) ∧
    (∃ t, transact (.issue 0x0400070000000000) grid = .next t ∧ decode 0x0400070000000000 = .ok (.readb 7) ∧
      t.status.lastErr = 0) ∧
    ∃ t, transact (.issue 0x0100000000000000) grid = .next t ∧ decode 0x0100000000000000 = .ok .clear ∧
      t.status.lastErr = 0 :=
  ⟨next_of (by decide +kernel), next_of (by decide +kernel), next_of (by decide +kernel), next_of (by decide +kernel)⟩

theorem witness_StepPerformsTheOldestTransaction :
    (grid.withPending [.read 0, .reset]).pending = .read 0 :: [.reset] ∧ grid.pending = [] := by decide

theorem witness_StepRunsTheDecodedCommand :
    (grid.withPending [.issue 0x0100000000000000, .reset]).pending = .issue 0x0100000000000000 :: [.reset] ∧
    decode 0x0100000000000000 = .ok .clear ∧ decode 0x0100000000000001 = .error .reservedBits := by decide

/-- Both ends of the two ranges of a step count. -/
theorem witness_FormatsDecodeToTheirOperands :
    (0x7FFF#16).toNat < 32768 ∧ ¬ (0x8000#16).toNat < 32768 ∧ (0xFFFF#16).toNat = 65535 := by decide

/-- A reserved bit at an end of its field, for every shape of the hypothesis, beside the largest fields with none. -/
theorem witness_ReservedBitsAreIllegal :
    (0x8000#16) ≠ 0 ∧ (0x0001#16) ≠ 0 ∧ (0x80#8) ≠ 0 ∧ (0x01#8) ≠ 0 ∧
    (0x02#8).extractLsb' 1 7 ≠ 0 ∧ (0x80#8).extractLsb' 1 7 ≠ 0 ∧ (0x01#8).extractLsb' 1 7 = 0 ∧
    (0x08#8).extractLsb' 3 5 ≠ 0 ∧ (0x80#8).extractLsb' 3 5 ≠ 0 ∧ (0x07#8).extractLsb' 3 5 = 0 ∧
    (∃ t, transact (.issue (packWord 0x01 0x8000 0 0 0)) grid = .next t ∧ FailedWith .illegal grid t) ∧
    (∃ t, transact (.issue (packWord 0x02 0 0 0 0x02)) grid = .next t ∧ FailedWith .illegal grid t) ∧
    ∃ t, transact (.issue (packWord 0x07 0 1 1 0x0F)) grid = .next t ∧ FailedWith .illegal grid t :=
  ⟨by decide, by decide, by decide, by decide, by decide, by decide, by decide, by decide, by decide, by decide,
    next_of (by decide +kernel), next_of (by decide +kernel), next_of (by decide +kernel)⟩

theorem witness_UnassignedOpcodesAreIllegal :
    0x0A ≤ (0x0A#8).toNat ∧ 0x0A ≤ (0xFF#8).toNat ∧
    (∃ t, transact (.issue (packWord 0x0A 1 2 3 4)) grid = .next t ∧ FailedWith .illegal grid t) :=
  ⟨by decide, by decide, next_of (by decide +kernel)⟩

theorem witness_DecodeOfEncodeIsTheCommand :
    (Instr.hscroll (-32768)).wellFormed = true ∧ (Instr.vscroll 32767).wellFormed = true ∧
    (Instr.rotl 65535 65535 65535 7).wellFormed = true := by decide

theorem witness_EncodeOfDecodeIsTheWord : decode 0x0600000001000304 = .ok (.rotr 0 1 3 4) := by decide

/-- The first and the last byte of the link. -/
theorem witness_LinkCarriesTheWordMostSignificantByteFirst :
    (linkBytes 0x0102030405060708).getD 0 0 = 0x01 ∧ (linkBytes 0x0102030405060708).getD 7 0 = 0x08 := by decide

theorem witness_AssembledCommandsDecodeBack :
    assembleLine gallery "hscroll -32768 ; leftmost".toList = .ok (.command (.hscroll (-32768))) := by decide +kernel

theorem witness_FailedCommandsChangeOnlyStatus :
    ∃ t, transact (.issue 0x0600000001000300) grid = .next t ∧ t.status.lastErr ≠ 0 := next_of (by decide +kernel)

theorem witness_SuccessfulCommandsKeepAnyErr :
    ∃ t, transact (.issue 0x0600000001000301) grid = .next t ∧ ¬ ∃ e, FailedWith e grid t := by
  refine (next_of (p := fun t => t.status.lastErr = 0) (by decide +kernel)).imp fun t h => ⟨h.1, ?_⟩
  rintro ⟨e, he, -⟩
  rw [h.2] at he
  cases e <;> exact absurd he (by decide)

/-- Each error, and success at the edge of its check. -/
theorem witness_FirstErrorIsReported :
    (∃ t, transact (.issue 0x0A00000000000000) grid = .next t ∧ t.status.lastErr = 1) ∧
    (∃ t, transact (.issue 0x0200040000000001) grid = .next t ∧ t.status.lastErr = 2) ∧
    (∃ t, transact (.issue 0x020003000F000001) grid = .next t ∧ t.status.lastErr = 0) ∧
    (∃ t, transact (.issue 0x0200040007000001) legacyGrid = .next t ∧ t.status.lastErr = 0) ∧
    (∃ t, transact (.issue 0x0200040008000001) legacyGrid = .next t ∧ t.status.lastErr = 4) ∧
    (∃ t, transact (.issue 0x0200050000000001) legacyGrid = .next t ∧ t.status.lastErr = 2) ∧
    (∃ t, transact (.issue 0x0500080000000001) grid = .next t ∧ t.status.lastErr = 2) ∧
    (∃ t, transact (.issue 0x0600000000000201) grid = .next t ∧ t.status.lastErr = 3) ∧
    (∃ t, transact (.issue 0x0600060001000301) grid = .next t ∧ t.status.lastErr = 2) ∧
    ∃ t, transact (.issue 0x0600060001000201) grid = .next t ∧ t.status.lastErr = 0 :=
  ⟨next_of (by decide +kernel), next_of (by decide +kernel), next_of (by decide +kernel), next_of (by decide +kernel),
    next_of (by decide +kernel), next_of (by decide +kernel), next_of (by decide +kernel), next_of (by decide +kernel),
    next_of (by decide +kernel), next_of (by decide +kernel)⟩

/-- The last pixel, and the first coordinates outside. -/
theorem witness_StrictTranslation :
    Params.panel.boundaryMode = .strict ∧ (127 < Params.panel.columns ∧ 63 < 8 * Params.panel.pages) ∧
    128 ≥ Params.panel.columns ∧ 64 ≥ 8 * Params.panel.pages ∧
    translatePixel Params.panel 127 63 = .ok (1023, 0) ∧ translatePixel Params.panel 128 63 = .error .range ∧
    translatePixel Params.panel 127 64 = .error .range := by decide

/-- T-LEG-01 to T-LEG-06 and T-LEG-09: a value in each clause. -/
theorem witness_LegacyTranslation :
    (chip 8 128 .legacyInclusive).boundaryMode = .legacyInclusive ∧ (chip 8 128 .legacyInclusive).legal ∧
    translatePixel (chip 8 128 .legacyInclusive) 129 0 = .error .range ∧
    translatePixel (chip 8 128 .legacyInclusive) 0 65 = .error .range ∧
    translatePixel (chip 8 128 .legacyInclusive) 128 56 = .error .index ∧
    translatePixel (chip 8 128 .legacyInclusive) 0 64 = .error .index ∧
    translatePixel (chip 8 128 .legacyInclusive) 128 64 = .error .index ∧
    translatePixel (chip 8 128 .legacyInclusive) 128 55 = .ok (896, 0) ∧
    translatePixel (chip 8 128 .legacyInclusive) 127 63 = .ok (1023, 0) := by decide

theorem witness_SetpxWritesOneBit :
    translatePixel grid.params (4#16).toNat (0#16).toNat = .error .range ∧
    translatePixel grid.params (3#16).toNat (15#16).toNat = .ok (7, 0) := by decide

theorem witness_SetpxChangesOnePixel :
    (3#16).toNat < grid.params.width ∧ (15#16).toNat < grid.params.height := by decide

theorem witness_XlateAnswersTheTranslation :
    legacyGrid.params.legal ∧ translatePixel legacyGrid.params (4#16).toNat (8#16).toNat = .error .index ∧
    translatePixel legacyGrid.params (4#16).toNat (7#16).toNat = .ok (4, 0) := by decide

/-- The last index of the map and the first outside it. -/
theorem witness_ReadbAnswersTheByte : (8#16).toNat ≥ grid.params.size ∧ (7#16).toNat < grid.params.size := by decide

theorem witness_WritebWritesOneByte :
    (1024#16).toNat ≥ Params.panel.size ∧ (1023#16).toNat < Params.panel.size := by decide

theorem witness_IdempotentCommands :
    (∃ t, exec (.xlate 3 15) grid = .next t ∧ t.result = 7) ∧ (∃ t, exec (.readb 7) grid = .next t ∧ t.result = 0x40) ∧
    (∃ t, transact (.read 3) grid = .next t ∧ t.replies = [0]) ∧ (∃ t, exec .clear grid = .next t ∧ t.fb = []) ∧
    (∃ t, exec (.setpx 0 0 true) grid = .next t ∧ t.fb ≠ grid.fb) ∧
    ∃ t, exec (.writeb 0 0) grid = .next t ∧ t.fb ≠ grid.fb :=
  ⟨next_of (by decide +kernel), next_of (by decide +kernel), next_of (by decide +kernel), next_of (by decide +kernel),
    next_of (by decide +kernel), next_of (by decide +kernel)⟩

/-- Both ends of the range of s, on one byte and on two. -/
theorem witness_RotRMovesTheRingUp :
    ([0x01] : List Byte) ≠ [] ∧ (1 ≤ 7 ∧ 7 ≤ 7) ∧ rotR [0x01] 7 = [0x02] ∧ rotR [0x01, 0x80] 1 = [0x00, 0xC0] := by
  decide

theorem witness_RotLMovesTheRingDown :
    ([0x01] : List Byte) ≠ [] ∧ (1 ≤ 1 ∧ 1 ≤ 7) ∧ rotL [0x01] 7 = [0x80] ∧ rotL [0x01, 0x80] 1 = [0x03, 0x00] := by
  decide

/-- Constant rows, one byte, two bytes, a composition at the end of its range, and a step count other than 4. -/
theorem witness_RotationLaws :
    (∀ b ∈ ([0xFF, 0xFF] : List Byte), b = 0xFF) ∧ (∀ b ∈ ([0x00] : List Byte), b = 0x00) ∧
    ([0xB4] : List Byte).length = 1 ∧ 2 ≤ ([0x12, 0x34] : List Byte).length ∧ 3 + 4 ≤ 7 ∧ ¬ 4 + 4 ≤ 7 ∧ 7 ≠ 4 := by
  decide

/-- Each of the three bad arguments, a row that ends one byte outside, and one that ends on the last byte. -/
theorem witness_RotrRotatesTheRow :
    (0#3) = 0 ∧ (0#16) = 0 ∧ (2 ≤ (2#16).toNat ∧ (0#16) = 0) ∧
    (6#16).toNat + ((3#16).toNat - 1) * (1#16).toNat ≥ grid.params.size ∧
    ¬ (6#16).toNat + ((2#16).toNat - 1) * (1#16).toNat ≥ grid.params.size ∧
    ¬ ((1#3) = 0 ∨ (2#16) = 0 ∨ (2 ≤ (2#16).toNat ∧ (1#16) = 0)) := by decide

theorem witness_RotlRotatesTheRow :
    (2 ≤ (3#16).toNat ∧ (0#16) = 0) ∧ (1016#16).toNat + ((9#16).toNat - 1) * (1#16).toNat ≥ Params.panel.size ∧
    ¬ (1016#16).toNat + ((8#16).toNat - 1) * (1#16).toNat ≥ Params.panel.size ∧
    ¬ ((7#3) = 0 ∨ (8#16) = 0 ∨ (2 ≤ (8#16).toNat ∧ (1#16) = 0)) := by decide

/-- The ends of the two small ranges and a whole turn, each way. -/
theorem witness_RingRotMovesTheRing :
    ringRot [0x01, 0x80] 1 = [0x00, 0xC0] ∧ ringRot [0x01, 0x80] 7 = rotR [0x01, 0x80] 7 ∧
    ringRot [0x01, 0x80] (-1) = [0x03, 0x00] ∧ ringRot [0x01, 0x80] (-7) = rotL [0x01, 0x80] 7 ∧
    ((-32 : Int) % (8 * (([0x01, 0x80] : List Byte).length : Int)) = 0) := by decide

theorem witness_VscrollMovesPixelsVertically :
    3 < grid.params.columns ∧ 3 < grid.params.width ∧ 15 < grid.params.height ∧
    (-32768 : Int) % (8 * (grid.params.pages : Int)) = 0 := by decide

theorem witness_HscrollMovesColumns :
    1 < grid.params.pages ∧ 3 < grid.params.columns ∧ 3 < grid.params.width ∧ 15 < grid.params.height ∧
    (-32768 : Int) % (grid.params.columns : Int) = 0 := by decide

/-- A pair of counts that undo each other, one that does not, and a count congruent to a sum. -/
theorem witness_VscrollsCompose :
    grid.params.legal ∧ ((-32768 : Int) + 32752) % (8 * (grid.params.pages : Int)) = 0 ∧
    ((9 : Int) + 8) % (8 * (grid.params.pages : Int)) ≠ 0 ∧
    (1 : Int) % (8 * (grid.params.pages : Int)) = ((9 : Int) + 8) % (8 * (grid.params.pages : Int)) ∧
    (∃ t, exec (.vscroll 9) grid = .next t ∧ t.fb ≠ grid.fb) ∧ ∃ v, exec (.vscroll 1) grid = .next v ∧ v.fb ≠ grid.fb :=
  ⟨by decide, by decide, by decide, by decide, next_of (by decide +kernel), next_of (by decide +kernel)⟩

theorem witness_HscrollsCompose :
    legacyGrid.params.legal ∧ ((3 : Int) + -3) % (legacyGrid.params.columns : Int) = 0 ∧
    ((3 : Int) + 2) % (legacyGrid.params.columns : Int) ≠ 0 ∧
    (-7 : Int) % (legacyGrid.params.columns : Int) = ((3 : Int) + 2) % (legacyGrid.params.columns : Int) ∧
    (∃ t, exec (.hscroll 3) legacyGrid = .next t ∧ t.fb ≠ legacyGrid.fb) ∧
    ∃ v, exec (.hscroll (-7)) legacyGrid = .next v ∧ v.fb ≠ legacyGrid.fb :=
  ⟨by decide, by decide, by decide, by decide, next_of (by decide +kernel), next_of (by decide +kernel)⟩

theorem witness_ScrollsCommute :
    grid.fbInv ∧ (∃ t, exec (.vscroll 3) grid = .next t ∧ t.fb ≠ grid.fb) ∧
    ∃ t, exec (.hscroll 1) grid = .next t ∧ t.fb ≠ grid.fb :=
  ⟨by decide +kernel, next_of (by decide +kernel), next_of (by decide +kernel)⟩

theorem witness_ScrollsConservePixels :
    3 < grid.params.columns ∧ 1 < grid.params.pages ∧ bitCount (readRow (columnStrip grid.params 3) grid.fb) = 9 ∧
    ∃ t, exec (.hscroll 1) grid = .next t ∧ t.fb ≠ grid.fb :=
  ⟨by decide, by decide, by decide +kernel, next_of (by decide +kernel)⟩

/-- T-SCR-06's picture, and the empty one. -/
theorem witness_ScrollsKeepConstantPictures :
    (∀ a, a < (chip 1 2).size → Memory.read (filled (chip 1 2) [0xFF, 0xFF]).fb a = 0xFF) ∧
    (∀ a, a < (chip 1 2).size → Memory.read (filled (chip 1 2) []).fb a = 0x00) ∧
    ∃ t, exec (.vscroll 5) (filled (chip 1 2) [0xFF, 0xFF]) = .next t ∧ t.fb = [(0, 0xFF), (1, 0xFF)] :=
  ⟨by decide +kernel, by decide +kernel, next_of (by decide +kernel)⟩

theorem witness_ResetStateMeetsTheInvariant : (chip 1 256).legal ∧ (chip 256 1).legal := by decide

/-- A state with a failed command behind it and a command before it. -/
theorem witness_StepKeepsTheInvariant :
    ((grid.withStatus ⟨2, true⟩).withPending [.issue 0x0800010000000000]).inv ∧
    ∃ t, step ((grid.withStatus ⟨2, true⟩).withPending [.issue 0x0800010000000000]) = .next t ∧ t.fb ≠ grid.fb :=
  ⟨by decide +kernel, next_of (by decide +kernel)⟩

theorem witness_OnlyWritersChangeTheFramebuffer :
    ∃ t, transact (.issue 0x0700000001000301) grid = .next t ∧ t.fb ≠ grid.fb := next_of (by decide +kernel)

/-- Two states with one engine and different pasts. -/
theorem witness_EngineStateDecidesTheOutcome :
    ((grid.withStatus ⟨3, true⟩).withReplies [7]).fb = grid.fb ∧
    (∃ t, transact (.issue 0x0400070000000000) grid = .next t ∧ t.result = 0x40) ∧
    ∃ t, transact (.issue 0x0400070000000000) ((grid.withStatus ⟨3, true⟩).withReplies [7]) = .next t ∧
      t.result = 0x40 :=
  ⟨by decide +kernel, next_of (by decide +kernel), next_of (by decide +kernel)⟩

theorem witness_RunsReturnTheValuesRead :
    ([.issue 0x0400070000000000, .read 0] : List Transaction) = [.issue 0x0400070000000000] ++ .read 0 :: [] ∧
    ∃ t, runOf [.issue 0x0400070000000000, .read 0] (grid.withReplies [9]) = .next t ∧ (observe t).replies = [0x40] :=
  ⟨rfl, next_of (by decide +kernel)⟩

/-- A run with no failure and one with a failure before a success. -/
theorem witness_AnyErrTellsWhetherACommandFailed :
    Transaction.reset ∉ [Transaction.issue 0, .issue 0x0100000000000000] ∧ noCommandFailed grid = true ∧
    (∃ t, runOf [.issue 0, .issue 0x0100000000000000] grid = .next t ∧ noCommandFailed t = false) ∧
    ∃ t, runOf [.issue 0x0100000000000000, .read 1] grid = .next t ∧ noCommandFailed t = true :=
  ⟨by decide, by decide, next_of (by decide +kernel), next_of (by decide +kernel)⟩

/-- The first coordinate that does not fit, an expansion that fails, and one that does not. -/
theorem witness_HostStopsAtTheFirstError :
    (Instr.vscroll 32767).wellFormed = true ∧ setpxAction true 65536 0 = .unfit ∧
    setpxAction true 65535 0 ≠ .unfit ∧ (∃ r, runActions (hlineActions 3 0 2 true) grid = .next r ∧ r.error ≠ none) ∧
    ∃ r, runActions (hlineActions 2 0 2 true) grid = .next r ∧ r.error = none :=
  ⟨by decide, by decide, by decide, next_of (by decide +kernel), next_of (by decide +kernel)⟩

/-- A line that ends at the edge, and one that runs one pixel over it. -/
theorem witness_HlineDrawsALine :
    grid.params.legal ∧ 15 < grid.params.height ∧ 1 + 3 ≤ grid.params.width ∧
    (grid.params.boundaryMode = .strict ∧ 4 ≤ grid.params.width ∧ grid.params.width < 4 + 1) := by decide

theorem witness_VlineDrawsALine :
    grid.params.legal ∧ 3 < grid.params.width ∧ 6 + 10 ≤ grid.params.height ∧
    (grid.params.boundaryMode = .strict ∧ 16 ≤ grid.params.height ∧ grid.params.height < 16 + 1) := by decide

theorem witness_BoxDrawsTheOutline :
    grid.params.legal ∧ 0 ≤ 3 ∧ 3 < grid.params.width ∧ 2 ≤ 15 ∧ 15 < grid.params.height := by decide

/-- An image of the display's size, one column more, and each centering. -/
theorem witness_DrawimgDrawsTheImage :
    (chip 1 2).legal ∧ (Image.mk 2 1 [0, 255]).wf ∧ (Image.mk 3 1 [0, 255, 0]).wf ∧ 2 ≤ (chip 1 2).width ∧
    3 > (chip 1 2).width ∧ 0 + 2 ≤ (chip 1 2).width ∧ 7 + 1 ≤ (chip 1 2).height ∧
    (chip 1 2).width / 2 - 2 / 2 + 2 ≤ (chip 1 2).width := by decide

theorem witness_DumpShowsEveryPixel :
    grid.params.legal ∧ 15 < grid.params.height ∧ 3 < grid.params.width := by decide

/-- The last column and the first outside. -/
theorem witness_StripMovesOneColumn :
    grid.params.legal ∧ (7#3) ≠ 0 ∧ 3 < grid.params.columns ∧ grid.params.columns ≤ 4 ∧ 3 < grid.params.width ∧
    15 < grid.params.height := by decide

theorem witness_PageSliceRotatesAsOneRing :
    grid.params.legal ∧ (1#3) ≠ 0 ∧ 1 < grid.params.pages ∧ grid.params.pages ≤ 2 := by decide

end Sys2Proof.Tests
end

section
/-! The effect of a command as a function of what it reads: the parameters, FB and RESULT (R28). STATUS and the host's
side enter only in `State.finish`, the two ends of a command (R142, R143). -/

namespace Sys2Proof.Machine

/-- ROTR and ROTL (R83, R84): the first error of the checks, or the new FB with RESULT as it was. -/
def rotationEffect (rot : List Byte → Nat → List Byte) (d : RowDesc) (steps : Nat) (p : Params) (m : Memory)
    (r : RegWord) : Except ErrCode (Memory × RegWord) :=
  match rotationError p d steps with
  | some e => .error e
  | none => .ok (updateRow (fun row => rot row steps) d m, r)

/-- The new FB and RESULT of a command on FB `m` and RESULT `r`, or its first error (R90 to R94, R83, R84, R111,
R112). -/
def effect (p : Params) (m : Memory) (r : RegWord) : Instr → Except ErrCode (Memory × RegWord)
  | .clear => .ok (Memory.zero, r)
  | .setpx x y pen =>
    (translatePixel p x.toNat y.toNat).map fun (idx, bit) =>
      (Memory.write m idx (penByte (Memory.read m idx) bit pen), r)
  | .xlate x y => (translatePixel p x.toNat y.toNat).map fun (idx, bit) => (m, translationWord idx bit)
  | .readb i => if i.toNat ≥ p.size then .error .range else .ok (m, (Memory.read m i.toNat).setWidth 32)
  | .writeb i v => if i.toNat ≥ p.size then .error .range else .ok (Memory.write m i.toNat v, r)
  | .rotr base stride len steps => rotationEffect rotR ⟨base.toNat, stride.toNat, len.toNat⟩ steps.toNat p m r
  | .rotl base stride len steps => rotationEffect rotL ⟨base.toNat, stride.toNat, len.toNat⟩ steps.toNat p m r
  | .vscroll n => .ok (vscrollFb p n m, r)
  | .hscroll n => .ok (hscrollFb p n m, r)

/-- The effect of a command word: that of the command it decodes to, or E_ILLEGAL (R67). -/
def wordEffect (p : Params) (m : Memory) (r : RegWord) (w : CommandWord) : Except ErrCode (Memory × RegWord) :=
  match decode w with
  | .ok i => effect p m r i
  | .error _ => .error .illegal

/-- The end of a command whose effect is `x`: the error raised, or FB and RESULT written and STATUS as after a
success. -/
def State.finish (s : State) : Except ErrCode (Memory × RegWord) → Outcome
  | .error e => raiseError e s
  | .ok (m, r) => .next (s.done m r)

theorem rotateRow_eq_finish (rot : List Byte → Nat → List Byte) (d : RowDesc) (steps : Nat) (s : State) :
    rotateRow rot d steps s = s.finish (rotationEffect rot d steps s.params s.fb s.result) := by
  unfold rotateRow rotationEffect
  cases rotationError s.params d steps <;> rfl

/-- A command does its effect, and nothing else. -/
theorem exec_eq_finish (i : Instr) (s : State) : exec i s = s.finish (effect s.params s.fb s.result i) := by
  cases i with
  | clear => rfl
  | setpx x y pen =>
    simp only [exec, execSetpx, effect]
    cases translatePixel s.params x.toNat y.toNat <;> rfl
  | xlate x y =>
    simp only [exec, execXlate, effect]
    cases translatePixel s.params x.toNat y.toNat <;> rfl
  | readb j => simp only [exec, execReadb, effect]; split <;> rfl
  | writeb j v => simp only [exec, execWriteb, effect]; split <;> rfl
  | rotr base stride len steps => exact rotateRow_eq_finish _ _ _ s
  | rotl base stride len steps => exact rotateRow_eq_finish _ _ _ s
  | vscroll n => rfl
  | hscroll n => rfl

theorem wordEffect_of_decode {w : CommandWord} {i : Instr} (h : decode w = .ok i) (p : Params) (m : Memory)
    (r : RegWord) : wordEffect p m r w = effect p m r i := by
  simp only [wordEffect, h]

/-- A word with an effect that succeeds is a command's. -/
theorem wordEffect_ok {p : Params} {m : Memory} {r : RegWord} {w : CommandWord} {a : Memory × RegWord}
    (h : wordEffect p m r w = .ok a) : ∃ i, decode w = .ok i ∧ effect p m r i = .ok a := by
  unfold wordEffect at h
  split at h
  · next i hi => exact ⟨i, hi, h⟩
  · cases h

/-- Issuing a word does the word's effect, and nothing else. -/
theorem transact_issue_eq_finish (w : CommandWord) (s : State) :
    transact (.issue w) s = s.finish (wordEffect s.params s.fb s.result w) := by
  simp only [transact, issue, wordEffect]
  cases decode w with
  | error e => rfl
  | ok i => exact exec_eq_finish i s

/-! ### What the end of a command tells of its effect -/

/-- The two ways a command ends. -/
theorem State.finish_cases {s t : State} {x : Except ErrCode (Memory × RegWord)} (h : s.finish x = .next t) :
    (∃ e, x = .error e ∧ t = s.withStatus (Status.failed e)) ∨ ∃ m r, x = .ok (m, r) ∧ t = s.done m r := by
  cases x with
  | error e => exact .inl ⟨e, rfl, by simpa [State.finish, raiseError] using h.symm⟩
  | ok a => exact .inr ⟨a.1, a.2, rfl, by simpa [State.finish] using h.symm⟩

/-- LAST_ERR = 0 tells that the command succeeded. -/
theorem State.finish_succeeded {s t : State} {x : Except ErrCode (Memory × RegWord)} (h : s.finish x = .next t)
    (h0 : t.status.lastErr = 0) : ∃ m r, x = .ok (m, r) ∧ t = s.done m r := by
  rcases State.finish_cases h with ⟨e, -, rfl⟩ | hok
  · exact absurd h0 e.code_ne_zero
  · exact hok

/-- LAST_ERR ≠ 0 tells that the command failed. -/
theorem State.finish_failed {s t : State} {x : Except ErrCode (Memory × RegWord)} (h : s.finish x = .next t)
    (h0 : t.status.lastErr ≠ 0) : ∃ e, x = .error e ∧ t = s.withStatus (Status.failed e) := by
  rcases State.finish_cases h with herr | ⟨m, r, -, rfl⟩
  · exact herr
  · exact absurd rfl h0

/-! ### What the effects leave and write -/

/-- A mapped effect succeeds exactly when what it is mapped from does. -/
theorem except_map_eq_ok {ε α β : Type} {f : α → β} {x : Except ε α} {b : β} :
    x.map f = .ok b ↔ ∃ a, x = .ok a ∧ f a = b := by
  cases x with
  | error e => simp [Except.map]
  | ok a => simp [Except.map]

theorem effect_xlate {p : Params} {m m' : Memory} {r r' : RegWord} {x y : BitVec 16}
    (h : effect p m r (.xlate x y) = .ok (m', r')) :
    m' = m ∧ ∃ idx bit, translatePixel p x.toNat y.toNat = .ok (idx, bit) ∧ r' = translationWord idx bit := by
  obtain ⟨⟨idx, bit⟩, htr, hout⟩ := except_map_eq_ok.mp h
  cases hout
  exact ⟨rfl, idx, bit, htr, rfl⟩

theorem effect_readb {p : Params} {m m' : Memory} {r r' : RegWord} {j : BitVec 16}
    (h : effect p m r (.readb j) = .ok (m', r')) : m' = m ∧ r' = (Memory.read m j.toNat).setWidth 32 := by
  simp only [effect] at h
  split at h
  · cases h
  · cases h; exact ⟨rfl, rfl⟩

theorem effect_setpx {p : Params} {m m' : Memory} {r r' : RegWord} {x y : BitVec 16} {pen : Bool}
    (h : effect p m r (.setpx x y pen) = .ok (m', r')) :
    r' = r ∧ ∃ idx bit, translatePixel p x.toNat y.toNat = .ok (idx, bit) ∧
      m' = Memory.write m idx (penByte (Memory.read m idx) bit pen) := by
  obtain ⟨⟨idx, bit⟩, htr, hout⟩ := except_map_eq_ok.mp h
  cases hout
  exact ⟨rfl, idx, bit, htr, rfl⟩

theorem effect_writeb {p : Params} {m m' : Memory} {r r' : RegWord} {j : BitVec 16} {v : Byte}
    (h : effect p m r (.writeb j v) = .ok (m', r')) : r' = r ∧ j.toNat < p.size ∧ m' = Memory.write m j.toNat v := by
  simp only [effect] at h
  split at h
  · cases h
  · cases h; exact ⟨rfl, by omega, rfl⟩

theorem rotationEffect_ok {rot : List Byte → Nat → List Byte} {d : RowDesc} {steps : Nat} {p : Params}
    {m m' : Memory} {r r' : RegWord} (h : rotationEffect rot d steps p m r = .ok (m', r')) :
    r' = r ∧ d.valid p ∧ m' = updateRow (fun row => rot row steps) d m := by
  unfold rotationEffect at h
  split at h
  · cases h
  · next hnone => cases h; exact ⟨rfl, (rotationError_none.mp hnone).2, rfl⟩

end Sys2Proof.Machine
end

section
/-! What every transaction of the host does (R29): it completes, it keeps the parameters (R5), and the fields of the
output registers (R22 to R26). -/

namespace Sys2Proof.Machine

/-! ### Resetting the engine -/

@[simp] theorem resetEngine_params (s : State) : (resetEngine s).params = s.params := rfl
@[simp] theorem resetEngine_fb (s : State) : (resetEngine s).fb = Memory.zero := rfl
@[simp] theorem resetEngine_result (s : State) : (resetEngine s).result = 0 := rfl
@[simp] theorem resetEngine_status (s : State) : (resetEngine s).status = { lastErr := 0, anyErr := false } := rfl
@[simp] theorem resetEngine_pending (s : State) : (resetEngine s).pending = s.pending := rfl
@[simp] theorem resetEngine_replies (s : State) : (resetEngine s).replies = s.replies := rfl

/-! ### Completion and frame -/

/-- A command word completes: as a failed command, or as one with an effect (R30, R142, R143). -/
theorem transact_issue_cases (w : CommandWord) (s : State) :
    (∃ e, transact (.issue w) s = .next (s.withStatus (Status.failed e))) ∨
      ∃ m r, transact (.issue w) s = .next (s.done m r) := by
  rw [transact_issue_eq_finish]
  cases wordEffect s.params s.fb s.result w with
  | error e => exact .inl ⟨e, rfl⟩
  | ok a => exact .inr ⟨a.1, a.2, rfl⟩

theorem transact_completes (tr : Transaction) (s : State) : ∃ t, transact tr s = .next t := by
  cases tr with
  | issue w =>
    rcases transact_issue_cases w s with ⟨e, h⟩ | ⟨m, r, h⟩
    · exact ⟨_, h⟩
    · exact ⟨_, h⟩
  | read sel => exact ⟨_, rfl⟩
  | reset => exact ⟨_, rfl⟩

theorem transact_read_eq {sel : BitVec 2} {s t : State} (h : transact (.read sel) s = .next t) :
    t = s.withReplies (s.replies ++ [readRegister sel s]) := (Host.Outcome.next.inj h).symm

theorem transact_reset_eq {s t : State} (h : transact .reset s = .next t) : t = resetEngine s :=
  (Host.Outcome.next.inj h).symm

/-- No transaction changes the parameters (R5). -/
theorem transact_params {tr : Transaction} {s t : State} (h : transact tr s = .next t) : t.params = s.params := by
  cases tr with
  | issue w =>
    rw [transact_issue_eq_finish] at h
    rcases State.finish_cases h with ⟨e, -, rfl⟩ | ⟨m, r, -, rfl⟩
    · rfl
    · rfl
  | read sel => rw [transact_read_eq h, State.withReplies_params]
  | reset => rw [transact_reset_eq h, resetEngine_params]

theorem step_of_pending {s : State} {tr : Transaction} {rest : List Transaction} (h : s.pending = tr :: rest) :
    step s = transact tr (s.withPending rest) := by
  simp only [step, h]

theorem step_of_idle {s : State} (h : s.pending = []) : step s = .next s := by
  simp only [step, h]

/-! ### The register select map (R26) -/

theorem readRegister_result (s : State) : readRegister 0 s = s.result := rfl

theorem readRegister_status (s : State) : readRegister 1 s = s.status.word := rfl

theorem readRegister_geometry (s : State) : readRegister 2 s = geometryWord s.params := rfl

theorem readRegister_config (s : State) : readRegister 3 s = configWord s.params := rfl

/-- GEOMETRY is constant (R24). -/
theorem transact_geometry {tr : Transaction} {s t : State} (h : transact tr s = .next t) :
    readRegister 2 t = readRegister 2 s := by
  rw [readRegister_geometry, readRegister_geometry, transact_params h]

/-- CONFIG is constant (R25). -/
theorem transact_config {tr : Transaction} {s t : State} (h : transact tr s = .next t) :
    readRegister 3 t = readRegister 3 s := by
  rw [readRegister_config, readRegister_config, transact_params h]

/-! ### The fields of the registers -/

/-- A field whose bits are all 0. -/
theorem extractLsb'_eq_zero_of_getLsbD {n start len : Nat} {x : BitVec n}
    (h : ∀ i, i < len → x.getLsbD (start + i) = false) : x.extractLsb' start len = 0 := by
  refine BitVec.eq_of_getLsbD_eq fun i hi => ?_
  rw [BitVec.getLsbD_extractLsb', h i hi, Bool.and_false]
  exact BitVec.getLsbD_zero.symm

theorem Status.word_lastErr (st : Status) : st.word.extractLsb' 0 4 = st.lastErr := BitVec.extractLsb'_append_eq_right

theorem Status.word_anyErr (st : Status) : st.word.getLsbD 4 = st.anyErr := by
  rw [Status.getLsbD_word, if_neg (by decide), if_pos rfl]

theorem Status.word_reserved (st : Status) : st.word.extractLsb' 5 27 = 0 :=
  extractLsb'_eq_zero_of_getLsbD fun i _ => by
    rw [Status.getLsbD_word, if_neg (by omega), if_neg (by omega)]

theorem geometryWord_pages (p : Params) : (geometryWord p).extractLsb' 0 16 = BitVec.ofNat 16 p.pages :=
  BitVec.extractLsb'_append_eq_right

theorem geometryWord_columns (p : Params) : (geometryWord p).extractLsb' 16 16 = BitVec.ofNat 16 p.columns :=
  BitVec.extractLsb'_append_eq_left

theorem configWord_eq_modes (p : Params) :
    configWord p = 0#30 ++ BitVec.ofBool (p.hscrollSense == .backToFront)
      ++ BitVec.ofBool (p.boundaryMode == .legacyInclusive) := by
  have hmode : boundaryModeBit p.boundaryMode = BitVec.ofBool (p.boundaryMode == .legacyInclusive) := by
    cases p.boundaryMode <;> rfl
  have hsense : hscrollSenseBit p.hscrollSense = BitVec.ofBool (p.hscrollSense == .backToFront) := by
    cases p.hscrollSense <;> rfl
  rw [configWord, hmode, hsense]

theorem configWord_boundaryMode (p : Params) :
    (configWord p).getLsbD 0 = true ↔ p.boundaryMode = .legacyInclusive := by
  rw [getLsbD_configWord, if_pos rfl, decide_eq_true_iff]

theorem configWord_hscrollSense (p : Params) :
    (configWord p).getLsbD 1 = true ↔ p.hscrollSense = .backToFront := by
  rw [getLsbD_configWord, if_neg (by decide), if_pos rfl, decide_eq_true_iff]

theorem configWord_reserved (p : Params) : (configWord p).extractLsb' 2 30 = 0 :=
  extractLsb'_eq_zero_of_getLsbD fun i _ => by
    rw [getLsbD_configWord, if_neg (by omega), if_neg (by omega)]

theorem translationWord_index (idx bit : Nat) :
    (translationWord idx bit).extractLsb' 0 16 = BitVec.ofNat 16 idx := by
  refine BitVec.eq_of_getLsbD_eq fun i hi => ?_
  rw [BitVec.getLsbD_extractLsb', getLsbD_translationWord, if_pos (by omega), Nat.zero_add]
  simp [hi]

theorem translationWord_bit (idx bit : Nat) : (translationWord idx bit).extractLsb' 16 3 = BitVec.ofNat 3 bit := by
  refine BitVec.eq_of_getLsbD_eq fun i hi => ?_
  rw [BitVec.getLsbD_extractLsb', getLsbD_translationWord, if_neg (by omega), if_pos (by omega),
    Nat.add_sub_cancel_left]
  simp [hi]

theorem translationWord_above (idx bit : Nat) : (translationWord idx bit).extractLsb' 19 13 = 0 :=
  extractLsb'_eq_zero_of_getLsbD fun i _ => by
    rw [getLsbD_translationWord, if_neg (by omega), if_neg (by omega)]

/-- The byte of READB's RESULT (R93). -/
theorem setWidth_byte_low (b : Byte) : (b.setWidth 32).extractLsb' 0 8 = b := by
  rw [BitVec.extractLsb'_setWidth_of_le (by decide), BitVec.extractLsb'_eq_self]

/-- READB's RESULT is 0 above its byte (R93). -/
theorem setWidth_byte_above (b : Byte) : (b.setWidth 32).extractLsb' 8 24 = 0 :=
  extractLsb'_eq_zero_of_getLsbD fun i _ => by
    rw [BitVec.getLsbD_setWidth, BitVec.getLsbD_of_ge b (8 + i) (by omega), Bool.and_false]

end Sys2Proof.Machine
end

section
/-! The invariant (R5, R21, R23) holds at reset and every step keeps it. -/

namespace Sys2Proof.Machine

/-! ### The FB invariant, command by command -/

/-- FB in its canonical form and inside `size` indexes: `State.fbInv` of the framebuffer alone. -/
abbrev Memory.inv (size : Nat) (m : Memory) : Prop := Memory.wf m ∧ Memory.inMap size m

theorem Memory.zero_inv (size : Nat) : Memory.inv size Memory.zero := ⟨Memory.zero_wf, Memory.zero_inMap size⟩

theorem Memory.write_inv {size : Nat} {m : Memory} (h : Memory.inv size m) {i : Nat} (hi : i < size) (v : Byte) :
    Memory.inv size (Memory.write m i v) := ⟨Memory.write_wf h.1 i v, Memory.write_inMap h.2 hi v⟩

/-- Updating a row of the map by a function that keeps the row's length. -/
theorem updateRow_inv {f : List Byte → List Byte} (hf : ∀ r, (f r).length = r.length) {d : RowDesc} {size : Nat}
    (hd : ∀ k, k < d.len → d.index k < size) {m : Memory} (h : Memory.inv size m) :
    Memory.inv size (updateRow f d m) :=
  ⟨updateRow_wf f d h.1, updateRow_inMap f h.2 ((hf _).trans (length_readRow d m)) hd⟩

theorem vscrollFb_inv {p : Params} {m : Memory} (h : Memory.inv p.size m) (n : Int) :
    Memory.inv p.size (vscrollFb p n m) := by
  refine List.foldlRecOn _ _ h fun m' hm' c hc => updateRow_inv (fun r => length_ringRot r n) (fun k hk => ?_) hm'
  rw [columnStrip_index]
  exact grid_lt_size hk (List.mem_range.mp hc)

theorem hscrollFb_inv {p : Params} {m : Memory} (h : Memory.inv p.size m) (n : Int) :
    Memory.inv p.size (hscrollFb p n m) := by
  refine List.foldlRecOn _ _ h fun m' hm' g hg => updateRow_inv (length_hscrollSlice _ _) (fun k hk => ?_) hm'
  rw [pageSlice_index]
  exact grid_lt_size (List.mem_range.mp hg) hk

theorem rotationEffect_keeps_inv {rot : List Byte → Nat → List Byte} (hrot : ∀ r n, (rot r n).length = r.length)
    {d : RowDesc} {steps : Nat} {p : Params} {m m' : Memory} {r r' : RegWord} (hm : Memory.inv p.size m)
    (h : rotationEffect rot d steps p m r = .ok (m', r')) : Memory.inv p.size m' := by
  obtain ⟨-, hd, rfl⟩ := rotationEffect_ok h
  exact updateRow_inv (fun row => hrot row steps) (fun k => RowDesc.index_lt hd) hm

/-- Every command that succeeds writes bytes of the map only, and in the canonical form. -/
theorem effect_keeps_inv {p : Params} {m m' : Memory} {r r' : RegWord} {i : Instr} (hm : Memory.inv p.size m)
    (h : effect p m r i = .ok (m', r')) : Memory.inv p.size m' := by
  cases i with
  | clear => cases h; exact Memory.zero_inv _
  | setpx x y pen =>
    obtain ⟨-, idx, bit, htr, rfl⟩ := effect_setpx h
    obtain ⟨-, -, hidx⟩ := translatePixel_ok htr
    exact Memory.write_inv hm hidx _
  | xlate x y => rw [(effect_xlate h).1]; exact hm
  | readb j => rw [(effect_readb h).1]; exact hm
  | writeb j v =>
    obtain ⟨-, hj, rfl⟩ := effect_writeb h
    exact Memory.write_inv hm hj v
  | rotr base stride len steps => exact rotationEffect_keeps_inv length_rotR hm h
  | rotl base stride len steps => exact rotationEffect_keeps_inv length_rotL hm h
  | vscroll n => cases h; exact vscrollFb_inv hm n
  | hscroll n => cases h; exact hscrollFb_inv hm n

/-! ### The invariant, transaction by transaction -/

/-- A failed command leaves a code of R140 and ANY_ERR = 1. -/
theorem withStatus_failed_inv {s : State} (h : s.inv) (e : ErrCode) : (s.withStatus (Status.failed e)).inv := by
  obtain ⟨hlegal, hfb, -⟩ := h
  exact ⟨hlegal, hfb, e.code_le_four, fun _ => rfl⟩

/-- A successful command leaves LAST_ERR = 0. -/
theorem done_inv {s : State} (h : s.inv) {m : Memory} (hm : Memory.inv s.params.size m) (r : RegWord) :
    (s.done m r).inv :=
  ⟨h.1, hm, by simp, fun h0 => absurd rfl h0⟩

theorem resetOf_inv {p : Params} (h : p.legal) : (State.resetOf p).inv :=
  ⟨h, Memory.zero_inv p.size, by simp, fun h0 => absurd rfl h0⟩

theorem resetEngine_inv {s : State} (h : s.inv) : (resetEngine s).inv :=
  ⟨h.1, Memory.zero_inv s.params.size, by simp, fun h0 => absurd rfl h0⟩

theorem transact_keeps_inv {tr : Transaction} {s t : State} (h : s.inv) (ht : transact tr s = .next t) : t.inv := by
  cases tr with
  | issue w =>
    have ⟨_, hfb, _⟩ := h
    rw [transact_issue_eq_finish] at ht
    rcases State.finish_cases ht with ⟨e, -, rfl⟩ | ⟨m, r, heff, rfl⟩
    · exact withStatus_failed_inv h e
    · obtain ⟨i, -, hi⟩ := wordEffect_ok heff
      exact done_inv h (effect_keeps_inv hfb hi) r
  | read sel => rw [transact_read_eq ht]; exact h
  | reset => rw [transact_reset_eq ht]; exact resetEngine_inv h

/-- Settles O48: the step is one transaction, and each of the three kinds keeps the invariant; for a command, by the
invariant of FB under each of the nine effects. -/
theorem stepKeepsTheInvariant : Obligations.StepKeepsTheInvariant := by
  unfold Obligations.StepKeepsTheInvariant
  intro s t hs ht
  cases hp : s.pending with
  | nil => rw [step_of_idle hp] at ht; cases ht; exact hs
  | cons tr rest =>
    rw [step_of_pending hp] at ht
    have hs' : (s.withPending rest).inv := hs
    exact transact_keeps_inv hs' ht

/-- Settles O47: the panel is a legal choice of R5, and a reset FB is empty and STATUS 0. -/
theorem resetStateMeetsTheInvariant : Obligations.ResetStateMeetsTheInvariant := by
  unfold Obligations.ResetStateMeetsTheInvariant
  exact ⟨resetOf_inv (by decide), fun p => resetOf_inv⟩

end Sys2Proof.Machine
end

section
/-! The statements about the registers, the transactions and what a command can change (R20 to R31). -/

namespace Sys2Proof.Machine

/-! ### Constants and fields of the registers -/

/-- Settles O4: the dimensions fit 16 bits, and GEOMETRY depends on the parameters alone. -/
theorem geometryReadsTheDimensions : Obligations.GeometryReadsTheDimensions := by
  unfold Obligations.GeometryReadsTheDimensions
  rintro s ⟨-, hpages, -, hcolumns⟩
  rw [readRegister_geometry, geometryWord_pages, geometryWord_columns]
  exact ⟨Nat.mod_eq_of_lt (by omega), Nat.mod_eq_of_lt (by omega), fun tr t => transact_geometry⟩

/-- Settles O5: the two bits of `configWord`, which depends on the parameters alone. -/
theorem configReadsTheModes : Obligations.ConfigReadsTheModes := by
  unfold Obligations.ConfigReadsTheModes
  intro s
  rw [readRegister_config]
  exact ⟨configWord_boundaryMode _, configWord_hscrollSense _, configWord_reserved _,
    fun tr t => transact_config⟩

theorem ErrCode.code_pos (e : ErrCode) : 1 ≤ e.code.toNat := by cases e <;> decide

/-- A command leaves LAST_ERR = 0 with ANY_ERR as it was, or a code of R140 with ANY_ERR = 1 (R142, R143). -/
theorem transact_issue_status (w : CommandWord) (s : State) : ∃ t, transact (.issue w) s = .next t ∧
    ((t.status.lastErr = 0 ∧ t.status.anyErr = s.status.anyErr) ∨
      (1 ≤ t.status.lastErr.toNat ∧ t.status.lastErr.toNat ≤ 4 ∧ t.status.anyErr = true)) := by
  rcases transact_issue_cases w s with ⟨e, h⟩ | ⟨m, r, h⟩
  · exact ⟨_, h, .inr ⟨e.code_pos, e.code_le_four, rfl⟩⟩
  · exact ⟨_, h, .inl ⟨rfl, rfl⟩⟩

/-- Settles O6: the fields of `Status.word`, and the two ways a command leaves STATUS. -/
theorem statusFieldsAndTheirWriters : Obligations.StatusFieldsAndTheirWriters := by
  unfold Obligations.StatusFieldsAndTheirWriters
  intro s
  rw [readRegister_status]
  refine ⟨s.status.word_lastErr, s.status.word_anyErr, s.status.word_reserved, fun w => transact_issue_status w s,
    fun sel t h => ?_, fun t h => ?_⟩
  · rw [transact_read_eq h, State.withReplies_status]
  · rw [transact_reset_eq h]; exact ⟨rfl, rfl⟩

/-- Settles O7: a Read adds its reply, and GEOMETRY and CONFIG are constant. -/
theorem hostReadsTheSelectedRegister : Obligations.HostReadsTheSelectedRegister := by
  unfold Obligations.HostReadsTheSelectedRegister
  intro s
  exact ⟨readRegister_result s, readRegister_status s, readRegister_geometry s, readRegister_config s,
    fun sel => ⟨_, rfl, rfl, rfl, rfl, rfl, rfl, rfl⟩, fun tr t h => ⟨transact_geometry h, transact_config h⟩⟩

/-- Settles O1: every value is that of `State.resetOf`, and every transaction completes. -/
theorem resetStateHoldsTheResetValues : Obligations.ResetStateHoldsTheResetValues := by
  unfold Obligations.ResetStateHoldsTheResetValues
  intro p
  exact ⟨Memory.read_nil, rfl, rfl, rfl, Status.word_reserved _, rfl, configWord_eq_modes p,
    fun w => transact_completes (.issue w) _⟩

/-! ### The step -/

/-- Settles O9: the two cases of the queue. -/
theorem stepPerformsTheOldestTransaction : Obligations.StepPerformsTheOldestTransaction := by
  unfold Obligations.StepPerformsTheOldestTransaction
  exact ⟨fun s tr rest => step_of_pending, fun s => step_of_idle⟩

/-- Settles O11: a step is a transaction, and a command ends as a failed or as a successful one. -/
theorem everyTransactionCompletes : Obligations.EveryTransactionCompletes := by
  unfold Obligations.EveryTransactionCompletes
  constructor
  · intro s
    cases hp : s.pending with
    | nil => exact ⟨s, step_of_idle hp⟩
    | cons tr rest => rw [step_of_pending hp]; exact transact_completes tr _
  · intro s i
    rcases exec_cases i s with ⟨e, h⟩ | ⟨m, r, h⟩
    · exact ⟨_, h, rfl, rfl, rfl⟩
    · exact ⟨_, h, rfl, rfl, rfl⟩

/-! ### What a command can change -/

/-- Settles O8: a failed command keeps RESULT, and of the nine effects only XLATE's and READB's write it. -/
theorem resultHoldsTheLastAnswer : Obligations.ResultHoldsTheLastAnswer := by
  unfold Obligations.ResultHoldsTheLastAnswer
  refine ⟨fun p => rfl, fun s t w ht => ?_⟩
  rw [transact_issue_eq_finish] at ht
  refine ⟨fun hfailed => ?_, fun i hi hok => ?_⟩
  · obtain ⟨e, -, rfl⟩ := State.finish_failed ht hfailed
    rfl
  · obtain ⟨m, r, heff, rfl⟩ := State.finish_succeeded ht hok
    rw [wordEffect_of_decode hi] at heff
    cases i with
    | clear => cases heff; rfl
    | setpx x y pen => exact (effect_setpx heff).1
    | xlate x y =>
      obtain ⟨-, idx, bit, htr, rfl⟩ := effect_xlate heff
      exact ⟨idx, bit, htr, translationWord_index idx bit, translationWord_bit idx bit, translationWord_above idx bit⟩
    | readb j =>
      obtain ⟨-, rfl⟩ := effect_readb heff
      exact ⟨setWidth_byte_low _, setWidth_byte_above _⟩
    | writeb j v => exact (effect_writeb heff).1
    | rotr base stride len steps => exact (rotationEffect_ok heff).1
    | rotl base stride len steps => exact (rotationEffect_ok heff).1
    | vscroll n => cases heff; rfl
    | hscroll n => cases heff; rfl

/-- Settles O49: a Read and a failed command keep FB, and so do the effects of XLATE and READB. -/
theorem onlyWritersChangeTheFramebuffer : Obligations.OnlyWritersChangeTheFramebuffer := by
  unfold Obligations.OnlyWritersChangeTheFramebuffer
  refine fun s t tr ht => ⟨transact_params ht, fun hfb => ?_⟩
  cases tr with
  | reset => exact .inl rfl
  | read sel => rw [transact_read_eq ht] at hfb; exact absurd rfl hfb
  | issue w =>
    rw [transact_issue_eq_finish] at ht
    rcases State.finish_cases ht with ⟨e, -, rfl⟩ | ⟨m, r, heff, rfl⟩
    · exact absurd rfl hfb
    · obtain ⟨i, hi, heff⟩ := wordEffect_ok heff
      refine .inr ⟨w, i, rfl, hi, rfl, ?_⟩
      cases i with
      | xlate x y => exact absurd (effect_xlate heff).1 hfb
      | readb j => exact absurd (effect_readb heff).1 hfb
      | _ => simp

/-- Settles O50: the effect is a function of the parameters, FB and RESULT, and an error or a success writes LAST_ERR
whatever it was. -/
theorem engineStateDecidesTheOutcome : Obligations.EngineStateDecidesTheOutcome := by
  unfold Obligations.EngineStateDecidesTheOutcome
  intro s s' t t' w hp hfb hresult ht ht'
  rw [transact_issue_eq_finish] at ht ht'
  rw [hp, hfb, hresult] at ht'
  cases heff : wordEffect s.params s.fb s.result w with
  | error e =>
    rw [heff] at ht ht'
    cases ht; cases ht'
    exact ⟨hfb, hresult, rfl⟩
  | ok a =>
    rw [heff] at ht ht'
    cases ht; cases ht'
    exact ⟨rfl, rfl, rfl⟩

end Sys2Proof.Machine
end

section
/-! The address translator case by case (R43, R44), which pixel an index and a bit are (R42), and SETPX on the picture
(R91). -/

namespace Sys2Proof.Machine

/-! ### What Translate answers -/

theorem translatePixel_strict_outside {p : Params} {x y : Nat} (hmode : p.boundaryMode = .strict)
    (h : x ≥ p.width ∨ y ≥ p.height) : translatePixel p x y = .error .range := by
  simp only [translatePixel, hmode, if_pos h]

theorem translatePixel_legacy_outside {p : Params} {x y : Nat} (hmode : p.boundaryMode = .legacyInclusive)
    (h : x > p.width ∨ y > p.height) : translatePixel p x y = .error .range := by
  simp only [translatePixel, hmode, if_pos h]

theorem translatePixel_legacy_index {p : Params} {x y : Nat} (hmode : p.boundaryMode = .legacyInclusive)
    (hx : x ≤ p.width) (hy : y ≤ p.height) (h : pixelIndex p x y ≥ p.size) :
    translatePixel p x y = .error .index := by
  simp only [translatePixel, hmode]
  rw [if_neg (by omega), if_pos h]

theorem translatePixel_legacy_ok {p : Params} {x y : Nat} (hmode : p.boundaryMode = .legacyInclusive)
    (hx : x ≤ p.width) (hy : y ≤ p.height) (h : pixelIndex p x y < p.size) :
    translatePixel p x y = .ok (pixelIndex p x y, pixelBit y) := by
  simp only [translatePixel, hmode]
  rw [if_neg (by omega), if_neg (by omega)]

/-- Inside the display the two modes agree (R44's last consequence). -/
theorem translatePixel_inDisplay {p : Params} {x y : Nat} (hx : x < p.width) (hy : y < p.height) :
    translatePixel p x y = .ok (pixelIndex p x y, pixelBit y) := by
  cases hmode : p.boundaryMode with
  | strict =>
    simp only [translatePixel, hmode]
    rw [if_neg (by omega)]
  | legacyInclusive => exact translatePixel_legacy_ok hmode hx.le hy.le (pixelIndex_lt_size hx hy)

/-! ### The indexes at the inclusive bounds -/

/-- One row below the display is past the last page. -/
theorem size_le_pixelIndex_height (p : Params) (x : Nat) : p.size ≤ pixelIndex p x p.height := by
  simp only [pixelIndex, Params.height, Nat.mul_div_cancel_left p.pages (by decide : 0 < 8)]
  exact Nat.le_add_right _ _

/-- One column right of the display is column 0 of the next page. -/
theorem pixelIndex_width (p : Params) (y : Nat) : pixelIndex p p.width y = (y / 8 + 1) * p.columns :=
  (Nat.succ_mul _ _).symm

/-! ### Pixels -/

/-- Two pixels whose columns are in the display are the same exactly when their bytes and bits are. -/
theorem pixel_place_eq_iff {p : Params} {x y x' y' : Nat} (hx : x < p.width) (hx' : x' < p.width) :
    (pixelIndex p x' y' = pixelIndex p x y ∧ pixelBit y' = pixelBit y) ↔ (x' = x ∧ y' = y) := by
  constructor
  · rintro ⟨hidx, hbit⟩
    obtain ⟨hpage, hcol⟩ := grid_injective hx' hx hidx
    simp only [pixelBit] at hbit
    exact ⟨hcol, by omega⟩
  · rintro ⟨rfl, rfl⟩
    exact ⟨rfl, rfl⟩

/-- Replacing the bit of one pixel changes that pixel alone (R42, R91). -/
theorem Memory.pixel_write_penByte {p : Params} {x y x' y' : Nat} (hx : x < p.width) (hx' : x' < p.width) (m : Memory)
    (pen : Bool) :
    Memory.pixel p
        (Memory.write m (pixelIndex p x y) (penByte (Memory.read m (pixelIndex p x y)) (pixelBit y) pen)) x' y'
      = if x' = x ∧ y' = y then pen else Memory.pixel p m x' y' := by
  have hbit : pixelBit y' < 8 := by simp only [pixelBit]; omega
  simp only [Memory.pixel, Memory.read_write, ← pixel_place_eq_iff hx hx']
  by_cases hidx : pixelIndex p x' y' = pixelIndex p x y
  · simp only [hidx, if_true, getLsbD_penByte, hbit, and_true, true_and]
  · simp only [hidx, if_false, false_and]

/-! ### A command whose effect is known -/

theorem effect_setpx_of_translate {p : Params} {x y : BitVec 16} {idx bit : Nat}
    (h : translatePixel p x.toNat y.toNat = .ok (idx, bit)) (m : Memory) (r : RegWord) (pen : Bool) :
    effect p m r (.setpx x y pen) = .ok (Memory.write m idx (penByte (Memory.read m idx) bit pen), r) := by
  simp only [effect, h, Except.map]

/-- A command whose effect succeeds writes it to FB and RESULT (R143). -/
theorem exec_of_effect {i : Instr} {s : State} {m : Memory} {r : RegWord}
    (h : effect s.params s.fb s.result i = .ok (m, r)) : exec i s = .next (s.done m r) := by
  rw [exec_eq_finish, h]
  rfl

/-! ### The statements -/

/-- Settles O25: outside the display the bounds check fails, inside it the index is of the map. -/
theorem strictTranslation : Obligations.StrictTranslation := by
  unfold Obligations.StrictTranslation
  intro p x y hmode
  exact ⟨translatePixel_strict_outside hmode,
    fun ⟨hx, hy⟩ => ⟨translatePixel_inDisplay hx hy, pixelIndex_lt_size hx hy, Nat.sub_le _ _⟩⟩

/-- Settles O26: the three answers of the inclusive check, at y = HEIGHT and x = WIDTH by the index there. -/
theorem legacyTranslation : Obligations.LegacyTranslation := by
  unfold Obligations.LegacyTranslation
  rintro p x y hmode ⟨hpages, -, hcolumns, -⟩
  refine ⟨translatePixel_legacy_outside hmode, translatePixel_legacy_index hmode, translatePixel_legacy_ok hmode,
    ?_, ?_, ?_, ?_⟩
  · rintro hx rfl
    exact translatePixel_legacy_index hmode hx le_rfl (size_le_pixelIndex_height p x)
  · rintro rfl hlast
    have hidx : pixelIndex p p.width y = p.size := by
      rw [pixelIndex_width, hlast, Nat.sub_add_cancel hpages]
    exact translatePixel_legacy_index hmode le_rfl (by simp only [Params.height]; omega) hidx.ge
  · rintro rfl hpage
    have hidx : pixelIndex p p.width y < p.size := by
      rw [pixelIndex_width]
      exact Nat.mul_lt_mul_of_pos_right (by omega) hcolumns
    rw [translatePixel_legacy_ok hmode le_rfl (by simp only [Params.height]; omega) hidx, pixelIndex_width]
  · intro hx hy
    rw [translatePixel_inDisplay hx hy]
    exact (translatePixel_inDisplay (p := { p with boundaryMode := .strict }) hx hy).symm

/-- Settles O29: the translation succeeds in either mode, and the bit it names is that of the pixel alone. -/
theorem setpxChangesOnePixel : Obligations.SetpxChangesOnePixel := by
  unfold Obligations.SetpxChangesOnePixel
  intro s x y pen hx hy
  have heffect := effect_setpx_of_translate (translatePixel_inDisplay hx hy) s.fb s.result pen
  exact ⟨_, exec_of_effect heffect, ⟨rfl, rfl, rfl, rfl, rfl⟩,
    fun x' y' hx' _ => Memory.pixel_write_penByte hx hx' s.fb pen⟩

end Sys2Proof.Machine
end

section
/-! Which commands are idempotent (R51): those whose effect, repeated on what it left, leaves it as it is. -/

namespace Sys2Proof.Machine

/-- A command succeeds on the FB and RESULT that its success left, and leaves them as they are. -/
def EffectIdempotent (i : Instr) : Prop :=
  ∀ (p : Params) (m m' : Memory) (r r' : RegWord), effect p m r i = .ok (m', r') → effect p m' r' i = .ok (m', r')

/-- A command with such an effect, issued twice, gives the state of once. An error is raised again: it leaves FB and
RESULT, and its STATUS does not depend on the STATUS before (R142). -/
theorem exec_idempotent {i : Instr} (hi : EffectIdempotent i) {s t : State} (h : exec i s = .next t) :
    exec i t = .next t := by
  rw [exec_eq_finish] at h ⊢
  rcases State.finish_cases h with ⟨e, heffect, rfl⟩ | ⟨m, r, heffect, rfl⟩
  · rw [State.withStatus_params, State.withStatus_fb, State.withStatus_result, heffect]
    rfl
  · rw [← exec_eq_finish, exec_of_effect (s := s.done m r) (hi _ _ _ _ _ heffect)]
    rfl

/-- No command changes the parameters or the host's side (R5, R29). -/
theorem exec_sameOutside {i : Instr} {s t : State} (h : exec i s = .next t) : SameOutside s t := by
  rw [exec_eq_finish] at h
  rcases State.finish_cases h with ⟨e, -, rfl⟩ | ⟨m, r, -, rfl⟩
  · exact ⟨rfl, rfl, rfl⟩
  · exact ⟨rfl, rfl, rfl⟩

/-- A command whose effect keeps FB keeps it also where it fails (R142). -/
theorem exec_keeps_fb {i : Instr} {s t : State} (h : exec i s = .next t)
    (hi : ∀ m r, effect s.params s.fb s.result i = .ok (m, r) → m = s.fb) : t.fb = s.fb := by
  rw [exec_eq_finish] at h
  rcases State.finish_cases h with ⟨e, -, rfl⟩ | ⟨m, r, heffect, rfl⟩
  · rfl
  · exact hi m r heffect

/-! ### The five idempotent effects -/

theorem penByte_penByte (b : Byte) (bit : Nat) (pen : Bool) :
    penByte (penByte b bit pen) bit pen = penByte b bit pen := by
  refine BitVec.eq_of_getLsbD_eq fun i _ => ?_
  simp only [getLsbD_penByte]
  split <;> rfl

theorem clear_effectIdempotent : EffectIdempotent .clear := by
  rintro p m m' r r' ⟨⟩
  rfl

theorem setpx_effectIdempotent (x y : BitVec 16) (pen : Bool) : EffectIdempotent (.setpx x y pen) := by
  intro p m m' r r' h
  obtain ⟨rfl, idx, bit, htr, rfl⟩ := effect_setpx h
  rw [effect_setpx_of_translate htr, Memory.read_write, if_pos rfl, penByte_penByte, Memory.write_write]

theorem writeb_effectIdempotent (j : BitVec 16) (v : Byte) : EffectIdempotent (.writeb j v) := by
  intro p m m' r r' h
  obtain ⟨rfl, hj, rfl⟩ := effect_writeb h
  simp only [effect, if_neg (Nat.not_le.mpr hj), Memory.write_write]

/-- READB's effect does not depend on RESULT and keeps FB. -/
theorem readb_effectIdempotent (j : BitVec 16) : EffectIdempotent (.readb j) := by
  intro p m m' r r' h
  obtain rfl := (effect_readb h).1
  exact h

/-- XLATE's effect does not depend on RESULT and keeps FB. -/
theorem xlate_effectIdempotent (x y : BitVec 16) : EffectIdempotent (.xlate x y) := by
  intro p m m' r r' h
  obtain rfl := (effect_xlate h).1
  exact h

/-! ### The four commands that move bits -/

/-- One page of two columns after reset, with FB `m`. -/
def twoColumns (m : Memory) : State := (State.resetOf ⟨1, 2, .strict, .frontToBack⟩).withFb m

theorem rotr_moves_twice :
    exec (.rotr 0 1 2 1) (twoColumns [(0, 0x01)]) = .next (twoColumns [(1, 0x80)]) ∧
    exec (.rotr 0 1 2 1) (twoColumns [(1, 0x80)]) = .next (twoColumns [(1, 0x40)]) := ⟨rfl, rfl⟩

theorem rotl_moves_twice :
    exec (.rotl 0 1 2 1) (twoColumns [(1, 0x80)]) = .next (twoColumns [(0, 0x01)]) ∧
    exec (.rotl 0 1 2 1) (twoColumns [(0, 0x01)]) = .next (twoColumns [(0, 0x02)]) := ⟨rfl, rfl⟩

theorem vscroll_moves_twice :
    exec (.vscroll 1) (twoColumns [(0, 0x02)]) = .next (twoColumns [(0, 0x01)]) ∧
    exec (.vscroll 1) (twoColumns [(0, 0x01)]) = .next (twoColumns [(0, 0x80)]) := ⟨rfl, rfl⟩

theorem hscroll_moves_twice :
    exec (.hscroll 1) (twoColumns [(1, 0x01)]) = .next (twoColumns [(0, 0x01)]) ∧
    exec (.hscroll 1) (twoColumns [(0, 0x01)]) = .next (twoColumns [(1, 0x01)]) := ⟨rfl, rfl⟩

/-- Settles O33: XLATE and READB keep FB, five effects are idempotent, and on a display of two bytes each of the other
four commands moves a bit again. -/
theorem idempotentCommands : Obligations.IdempotentCommands := by
  unfold Obligations.IdempotentCommands
  refine ⟨fun s t i hi h => ⟨exec_keeps_fb h fun m r heffect => ?_, exec_sameOutside h⟩, fun s t sel h => ?_,
    fun s t i hi => exec_idempotent ?_, ?_, ?_, ?_, ?_⟩
  · rcases hi with ⟨x, y, rfl⟩ | ⟨j, rfl⟩
    · exact (effect_xlate heffect).1
    · exact (effect_readb heffect).1
  · rw [transact_read_eq h]
    exact ⟨rfl, rfl, rfl, rfl⟩
  · rcases hi with rfl | ⟨x, y, pen, rfl⟩ | ⟨j, v, rfl⟩ | ⟨j, rfl⟩ | ⟨x, y, rfl⟩
    · exact clear_effectIdempotent
    · exact setpx_effectIdempotent x y pen
    · exact writeb_effectIdempotent j v
    · exact readb_effectIdempotent j
    · exact xlate_effectIdempotent x y
  · exact ⟨_, _, _, 0, 1, 2, 1, rotr_moves_twice.1, rotr_moves_twice.2, by decide⟩
  · exact ⟨_, _, _, 0, 1, 2, 1, rotl_moves_twice.1, rotl_moves_twice.2, by decide⟩
  · exact ⟨_, _, _, 1, vscroll_moves_twice.1, vscroll_moves_twice.2, by decide⟩
  · exact ⟨_, _, _, 1, hscroll_moves_twice.1, hscroll_moves_twice.2, by decide⟩

end Sys2Proof.Machine
end

section
/-! Words and their fields (R61), and the round trip of decoder and encoder (R62 to R67): a word matches a row of the
opcode map exactly when it is the word of the command the row reads from it. -/

namespace Sys2Proof

/-! ### Words field by field -/

theorem packWord_eq_iff {op : BitVec 8} {a b c : BitVec 16} {d : BitVec 8} {w : CommandWord} :
    packWord op a b c d = w ↔
      opField w = op ∧ a16Field w = a ∧ b16Field w = b ∧ c16Field w = c ∧ d8Field w = d := by
  rw [eq_comm, ← packWord_inj, packWord_fields]

/-- A mask and match (R63) say of each field on its own which bits it has. -/
theorem and_eq_iff_fields {w mask pattern : CommandWord} :
    w &&& mask = pattern ↔
      opField w &&& opField mask = opField pattern ∧ a16Field w &&& a16Field mask = a16Field pattern ∧
      b16Field w &&& b16Field mask = b16Field pattern ∧ c16Field w &&& c16Field mask = c16Field pattern ∧
      d8Field w &&& d8Field mask = d8Field pattern := by
  rw [← packWord_inj, ← packWord_and, packWord_fields, packWord_fields, packWord_fields]

/-! ### The rows of the opcode map -/

/-- D8 is a pen exactly when D8[7:1] is 0 (R62). -/
theorem eq_pen_iff : ∀ d : BitVec 8, d = 0#7 ++ BitVec.ofBool (d.getLsbD 0) ↔ d &&& 0xFE#8 = 0#8 := by decide

/-- D8 is a step count exactly when D8[7:3] is 0 (R62). -/
theorem eq_steps_iff : ∀ d : BitVec 8, d = 0#5 ++ d.extractLsb' 0 3 ↔ d &&& 0xF8#8 = 0#8 := by decide

/-- The mask of a row covers the fields its format fixes, and the operands are the other fields. -/
theorem encode_operands_iff (w : CommandWord) :
    ∀ r ∈ opcodeRows, (encode (r.operands w) = w ↔ w &&& r.mask = r.pattern) := by
  have hones8 (x : BitVec 8) : x &&& 0xFF#8 = x := BitVec.and_allOnes
  have hones16 (x : BitVec 16) : x &&& 0xFFFF#16 = x := BitVec.and_allOnes
  -- Row by row: both sides as conditions on the five fields, then the fields of the literal masks and matches.
  simp only [opcodeRows, List.forall_mem_cons, encode, opcodeOf, packWord_eq_iff, and_eq_iff_fields, eq_pen_iff,
    eq_steps_iff, BitVec.ofInt_toInt]
  simp [opField, a16Field, b16Field, c16Field, d8Field, hones8, hones16]

theorem toInt_stepCountFits (a : BitVec 16) : StepCountFits a.toInt := by
  have hlo := BitVec.le_toInt a
  have hhi := BitVec.toInt_lt (x := a)
  exact ⟨hlo, by omega⟩

theorem operands_wellFormed (w : CommandWord) : ∀ r ∈ opcodeRows, (r.operands w).wellFormed = true := by
  simp [opcodeRows, Instr.wellFormed, toInt_stepCountFits]

/-! ### The decoder -/

/-- What a word decodes to was read by a row that the word matches (R67). -/
theorem decode_ok_row {w : CommandWord} {i : Instr} (h : decode w = .ok i) :
    ∃ r ∈ opcodeRows, w &&& r.mask = r.pattern ∧ r.operands w = i := by
  unfold decode at h
  split at h
  · next r hr =>
    exact ⟨r, List.mem_of_find?_eq_some hr, by simpa [OpcodeRow.encodes] using List.find?_some hr, Except.ok.inj h⟩
  · split at h <;> cases h

theorem encode_of_decode {w : CommandWord} {i : Instr} (h : decode w = .ok i) : encode i = w := by
  obtain ⟨r, hr, hw, rfl⟩ := decode_ok_row h
  exact (encode_operands_iff w r hr).mpr hw

theorem decode_wellFormed {w : CommandWord} {i : Instr} (h : decode w = .ok i) : i.wellFormed = true := by
  obtain ⟨r, hr, -, rfl⟩ := decode_ok_row h
  exact operands_wellFormed w r hr

open Laws.EncodeMatchesRow (rowNumber)

theorem encode_matches_row (i : Instr) : Laws.EncodeMatchesRow.Statement i := by
  cases i with
  | clear => exact Laws.EncodeMatchesRow.clear
  | setpx x y pen => exact Laws.EncodeMatchesRow.setpx x y pen
  | xlate x y => exact Laws.EncodeMatchesRow.xlate x y
  | readb j => exact Laws.EncodeMatchesRow.readb j
  | writeb j v => exact Laws.EncodeMatchesRow.writeb j v
  | rotr base stride len steps => exact Laws.EncodeMatchesRow.rotr base stride len steps
  | rotl base stride len steps => exact Laws.EncodeMatchesRow.rotl base stride len steps
  | vscroll n => exact Laws.EncodeMatchesRow.vscroll n
  | hscroll n => exact Laws.EncodeMatchesRow.hscroll n

theorem toInt_ofInt_stepCount {n : Int} (h : StepCountFits n) : (BitVec.ofInt 16 n).toInt = n :=
  BitVec.toInt_ofInt_eq_self (by decide) h.1 (by have := h.2; omega)

theorem pen_bit (pen : Bool) : (0#7 ++ BitVec.ofBool pen).getLsbD 0 = pen := by cases pen <;> rfl

/-- The row of a command reads its operands back from its word. -/
theorem operands_encode {i : Instr} (hi : i.wellFormed = true) {r : OpcodeRow}
    (hr : opcodeRows[rowNumber i]? = some r) : r.operands (encode i) = i := by
  cases i with
  | clear => cases hr; rfl
  | setpx x y pen =>
    cases hr
    simp only [encode, a16Field_packWord, b16Field_packWord, d8Field_packWord, pen_bit]
  | xlate x y => cases hr; simp only [encode, a16Field_packWord, b16Field_packWord]
  | readb j => cases hr; simp only [encode, a16Field_packWord]
  | writeb j v => cases hr; simp only [encode, a16Field_packWord, d8Field_packWord]
  | rotr base stride len steps =>
    cases hr
    simp only [encode, a16Field_packWord, b16Field_packWord, c16Field_packWord, d8Field_packWord,
      BitVec.extractLsb'_append_eq_right]
  | rotl base stride len steps =>
    cases hr
    simp only [encode, a16Field_packWord, b16Field_packWord, c16Field_packWord, d8Field_packWord,
      BitVec.extractLsb'_append_eq_right]
  | vscroll n => cases hr; simp only [encode, a16Field_packWord, toInt_ofInt_stepCount (of_decide_eq_true hi)]
  | hscroll n => cases hr; simp only [encode, a16Field_packWord, toInt_ofInt_stepCount (of_decide_eq_true hi)]

/-- A word that matches the row at place `n` decodes to what the row reads from it. -/
theorem decode_of_matches {w : CommandWord} {r : OpcodeRow} (n : Nat) (hr : opcodeRows[n]? = some r)
    (h : w &&& r.mask = r.pattern) : decode w = .ok (r.operands w) :=
  decode_of_row (List.mem_of_getElem? hr) h

theorem decode_encode {i : Instr} (hi : i.wellFormed = true) : decode (encode i) = .ok i := by
  obtain ⟨r, hr, hmatch⟩ := encode_matches_row i
  rw [decode_of_matches _ hr hmatch, operands_encode hi hr]

/-- Settles O17: the word of a command matches the command's row, which reads the operands back. -/
theorem decodeOfEncodeIsTheCommand : Obligations.DecodeOfEncodeIsTheCommand := by
  unfold Obligations.DecodeOfEncodeIsTheCommand
  exact fun i => decode_encode

/-- Settles O18: a word that matches a row is the word of the command the row reads from it. -/
theorem encodeOfDecodeIsTheWord : Obligations.EncodeOfDecodeIsTheWord := by
  unfold Obligations.EncodeOfDecodeIsTheWord
  exact fun w i h => ⟨encode_of_decode h, decode_wellFormed h⟩

theorem decode_ok_iff {w : CommandWord} {i : Instr} : decode w = .ok i ↔ i.wellFormed = true ∧ w = encode i := by
  constructor
  · exact fun h => ⟨decode_wellFormed h, (encode_of_decode h).symm⟩
  · rintro ⟨hi, rfl⟩; exact decode_encode hi

end Sys2Proof
end

section
/-! The statements about the word, its formats and the opcode map (R61 to R65, R67). -/

namespace Sys2Proof

/-! ### The word as a number -/

theorem toNat_append_eq_add {m n : Nat} (x : BitVec m) (y : BitVec n) : (x ++ y).toNat = x.toNat * 2 ^ n + y.toNat := by
  rw [BitVec.toNat_append, ← Nat.shiftLeft_add_eq_or_of_lt y.isLt, Nat.shiftLeft_eq]

theorem packWord_toNat (op : BitVec 8) (a b c : BitVec 16) (d : BitVec 8) :
    (packWord op a b c d).toNat
      = op.toNat * 2 ^ 56 + a.toNat * 2 ^ 40 + b.toNat * 2 ^ 24 + c.toNat * 2 ^ 8 + d.toNat := by
  simp only [packWord, toNat_append_eq_add]
  ring

/-- Settles O12: each `++` of `packWord` shifts what stands before it, and a word is packed of its own fields. -/
theorem wordIsItsFields : Obligations.WordIsItsFields := by
  unfold Obligations.WordIsItsFields
  refine ⟨fun w => ?_, packWord_toNat⟩
  rw [← packWord_toNat, packWord_fields]

/-! ### Formats -/

/-- Two's complement of a 16-bit field (R62). -/
theorem toInt_eq_twosComplement (a : BitVec 16) :
    a.toInt = if a.toNat < 32768 then (a.toNat : Int) else (a.toNat : Int) - 65536 := by
  rw [BitVec.toInt_eq_toNat_cond]
  split_ifs <;> omega

/-- A step count in its range is the value of one 16-bit field, its own. -/
theorem stepCountFits_and_iff (n : Int) (P : BitVec 16 → Prop) :
    StepCountFits n ∧ P (BitVec.ofInt 16 n) ↔
      ∃ a, P a ∧ n = if a.toNat < 32768 then (a.toNat : Int) else (a.toNat : Int) - 65536 := by
  simp only [← toInt_eq_twosComplement]
  constructor
  · rintro ⟨hn, h⟩
    exact ⟨_, h, (toInt_ofInt_stepCount hn).symm⟩
  · rintro ⟨a, h, rfl⟩
    exact ⟨toInt_stepCountFits a, by rwa [BitVec.ofInt_toInt]⟩

theorem decode_ok_iff_of_wellFormed {w : CommandWord} {i : Instr} (hi : i.wellFormed = true) :
    decode w = .ok i ↔ w = encode i := by
  rw [decode_ok_iff, and_iff_right hi]

/-- Settles O13: a word decodes to a command exactly when it is the command's word; for format S the field is the step
count in two's complement. -/
theorem formatsDecodeToTheirOperands : Obligations.FormatsDecodeToTheirOperands := by
  unfold Obligations.FormatsDecodeToTheirOperands
  intro w
  refine ⟨decode_ok_iff_of_wellFormed rfl, fun x y pen => decode_ok_iff_of_wellFormed rfl,
    fun x y => decode_ok_iff_of_wellFormed rfl, fun i => decode_ok_iff_of_wellFormed rfl,
    fun i v => decode_ok_iff_of_wellFormed rfl, fun base stride len steps =>
      ⟨decode_ok_iff_of_wellFormed rfl, decode_ok_iff_of_wellFormed rfl⟩, fun n => ⟨?_, ?_⟩⟩
  · rw [decode_ok_iff, Instr.wellFormed, decide_eq_true_iff]
    exact stepCountFits_and_iff n fun a => w = packWord 0x08 a 0 0 0
  · rw [decode_ok_iff, Instr.wellFormed, decide_eq_true_iff]
    exact stepCountFits_and_iff n fun a => w = packWord 0x09 a 0 0 0

/-! ### Masks -/

open Laws.EncodeMatchesRow (rowNumber)

/-- A word that decodes to a command matches the command's row. -/
theorem matches_of_decode {w : CommandWord} {i : Instr} {r : OpcodeRow} (hr : opcodeRows[rowNumber i]? = some r)
    (h : decode w = .ok i) : w &&& r.mask = r.pattern := by
  obtain ⟨q, hq, hmatch⟩ := encode_matches_row i
  obtain rfl : r = q := Option.some.inj (hr.symm.trans hq)
  rwa [encode_of_decode h] at hmatch

/-- Settles O14: a word that decodes to a command matches its row, and a word that matches a row decodes to the row's
command. -/
theorem masksDecideTheCommand : Obligations.MasksDecideTheCommand := by
  unfold Obligations.MasksDecideTheCommand
  intro w
  exact ⟨⟨fun h => matches_of_decode rfl h, decode_of_matches 0 rfl⟩,
    ⟨fun ⟨_, _, _, h⟩ => matches_of_decode rfl h, fun h => ⟨_, _, _, decode_of_matches 1 rfl h⟩⟩,
    ⟨fun ⟨_, _, h⟩ => matches_of_decode rfl h, fun h => ⟨_, _, decode_of_matches 2 rfl h⟩⟩,
    ⟨fun ⟨_, h⟩ => matches_of_decode rfl h, fun h => ⟨_, decode_of_matches 3 rfl h⟩⟩,
    ⟨fun ⟨_, _, h⟩ => matches_of_decode rfl h, fun h => ⟨_, _, decode_of_matches 4 rfl h⟩⟩,
    ⟨fun ⟨_, _, _, _, h⟩ => matches_of_decode rfl h, fun h => ⟨_, _, _, _, decode_of_matches 5 rfl h⟩⟩,
    ⟨fun ⟨_, _, _, _, h⟩ => matches_of_decode rfl h, fun h => ⟨_, _, _, _, decode_of_matches 6 rfl h⟩⟩,
    ⟨fun ⟨_, h⟩ => matches_of_decode rfl h, fun h => ⟨_, decode_of_matches 7 rfl h⟩⟩,
    ⟨fun ⟨_, h⟩ => matches_of_decode rfl h, fun h => ⟨_, decode_of_matches 8 rfl h⟩⟩⟩

/-! ### Illegal words -/

/-- What the format of a command fixes of the fields beside OP: the fields and bits that R64 reserves are 0. -/
def ReservedClear (a b c : BitVec 16) (d : BitVec 8) : Instr → Prop
  | .clear => a = 0 ∧ b = 0 ∧ c = 0 ∧ d = 0
  | .setpx _ _ _ => c = 0 ∧ d.extractLsb' 1 7 = 0
  | .xlate _ _ => c = 0 ∧ d = 0
  | .readb _ => b = 0 ∧ c = 0 ∧ d = 0
  | .writeb _ _ => b = 0 ∧ c = 0
  | .rotr _ _ _ _ => d.extractLsb' 3 5 = 0
  | .rotl _ _ _ _ => d.extractLsb' 3 5 = 0
  | .vscroll _ => b = 0 ∧ c = 0 ∧ d = 0
  | .hscroll _ => b = 0 ∧ c = 0 ∧ d = 0

/-- A word decodes to commands of its own OP only, and then its reserved bits are 0. -/
theorem decode_packWord_ok {op : BitVec 8} {a b c : BitVec 16} {d : BitVec 8} {i : Instr}
    (h : decode (packWord op a b c d) = .ok i) : op = opcodeOf i ∧ ReservedClear a b c d i := by
  have hw := encode_of_decode h
  cases i with
  | clear => obtain ⟨rfl, rfl, rfl, rfl, rfl⟩ := packWord_inj.mp hw; exact ⟨rfl, rfl, rfl, rfl, rfl⟩
  | setpx x y pen =>
    obtain ⟨rfl, -, -, rfl, rfl⟩ := packWord_inj.mp hw
    exact ⟨rfl, rfl, BitVec.extractLsb'_append_eq_left⟩
  | xlate x y => obtain ⟨rfl, -, -, rfl, rfl⟩ := packWord_inj.mp hw; exact ⟨rfl, rfl, rfl⟩
  | readb j => obtain ⟨rfl, -, rfl, rfl, rfl⟩ := packWord_inj.mp hw; exact ⟨rfl, rfl, rfl, rfl⟩
  | writeb j v => obtain ⟨rfl, -, rfl, rfl, -⟩ := packWord_inj.mp hw; exact ⟨rfl, rfl, rfl⟩
  | rotr base stride len steps =>
    obtain ⟨rfl, -, -, -, rfl⟩ := packWord_inj.mp hw
    exact ⟨rfl, BitVec.extractLsb'_append_eq_left⟩
  | rotl base stride len steps =>
    obtain ⟨rfl, -, -, -, rfl⟩ := packWord_inj.mp hw
    exact ⟨rfl, BitVec.extractLsb'_append_eq_left⟩
  | vscroll n => obtain ⟨rfl, -, rfl, rfl, rfl⟩ := packWord_inj.mp hw; exact ⟨rfl, rfl, rfl, rfl⟩
  | hscroll n => obtain ⟨rfl, -, rfl, rfl, rfl⟩ := packWord_inj.mp hw; exact ⟨rfl, rfl, rfl, rfl⟩

open Machine

/-- A word that decodes to nothing raises E_ILLEGAL with no other effect (R67). -/
theorem transact_illegal {w : CommandWord} {e : DecodeError} (h : decode w = .error e) (s : State) :
    ∃ t, transact (.issue w) s = .next t ∧ FailedWith .illegal s t := by
  refine ⟨s.withStatus (Status.failed .illegal), ?_, rfl, rfl, rfl, rfl, rfl, rfl, rfl⟩
  simp only [transact, issue, h, raiseError]

theorem transact_illegal_of_ne_ok {w : CommandWord} (h : ∀ i, decode w ≠ .ok i) (s : State) :
    ∃ t, transact (.issue w) s = .next t ∧ FailedWith .illegal s t := by
  cases hw : decode w with
  | ok i => exact absurd hw (h i)
  | error e => exact transact_illegal hw s

/-- Settles O15: a word that decodes to a command has the command's reserved bits 0. -/
theorem reservedBitsAreIllegal : Obligations.ReservedBitsAreIllegal := by
  unfold Obligations.ReservedBitsAreIllegal
  intro op a b c d s hreserved
  refine transact_illegal_of_ne_ok (fun i hi => ?_) s
  obtain ⟨rfl, hclear⟩ := decode_packWord_ok hi
  -- The command's OP leaves one clause of `hreserved`, and that clause has a reserved bit set.
  cases i <;> simp_all [opcodeOf, ReservedClear]

theorem opcodeOf_assigned (i : Instr) : 1 ≤ (opcodeOf i).toNat ∧ (opcodeOf i).toNat ≤ 9 := by
  cases i <;> simp [opcodeOf]

/-- Settles O16: a word that decodes has the OP of a command, 1 to 9. -/
theorem unassignedOpcodesAreIllegal : Obligations.UnassignedOpcodesAreIllegal := by
  unfold Obligations.UnassignedOpcodesAreIllegal
  intro op a b c d s hop
  refine transact_illegal_of_ne_ok (fun i hi => ?_) s
  obtain ⟨rfl, -⟩ := decode_packWord_ok hi
  obtain ⟨hlo, hhi⟩ := opcodeOf_assigned i
  rcases hop with h0 | hge
  · rw [h0] at hlo; exact absurd hlo (by decide)
  · omega

/-- Settles O10: the step issues the word; a word that decodes is executed, any other is illegal. -/
theorem stepRunsTheDecodedCommand : Obligations.StepRunsTheDecodedCommand := by
  unfold Obligations.StepRunsTheDecodedCommand
  intro s w rest hpending
  rw [step_of_pending hpending]
  refine ⟨fun i hi => ⟨?_, decode_wellFormed hi⟩, fun e he => transact_illegal he _⟩
  simp only [transact, issue, hi]

end Sys2Proof
end

section
/-! The byte-wide link (R71) and the assembler (R69, R72). -/

namespace Sys2Proof.Machine

/-! ### The link -/

/-- The bytes of the link are neighbours, and together the whole word. -/
theorem wordOfLink_linkBytes (w : CommandWord) (rest : List Byte) :
    wordOfLink (linkBytes w ++ rest) = some (w, rest) := by
  simp only [linkBytes, List.cons_append, List.nil_append, wordOfLink,
    BitVec.extractLsb'_append_extractLsb'_eq_extractLsb', BitVec.extractLsb'_eq_self]

/-- Settles O20: by the place of each byte, and because the receiver appends them in the order sent. -/
theorem linkCarriesTheWordMostSignificantByteFirst : Obligations.LinkCarriesTheWordMostSignificantByteFirst := by
  unfold Obligations.LinkCarriesTheWordMostSignificantByteFirst
  refine fun w rest => ⟨rfl, fun k hk => ?_, wordOfLink_linkBytes w rest⟩
  interval_cases k <;> rfl

/-! ### What the assembler accepts -/

/-- What `assembleCommand` answers for the text of a line before its comment: the mnemonic up to the first blank and
the operands after it (R69). -/
def lineCommand (line : List Char) : Option (Except AsmError Instr) :=
  let text := trimBlanks (dropComment line)
  assembleCommand (text.takeWhile fun c => !isBlankChar c) (operandTexts (text.dropWhile fun c => !isBlankChar c))

/-- A line is accepted as a command by its own text alone: the host's images are for pseudo-instructions. -/
theorem assembleLine_eq_command_iff {images : List Char → Option Image} {line : List Char} {i : Instr} :
    assembleLine images line = .ok (.command i) ↔
      (trimBlanks (dropComment line)).isEmpty = false ∧ lineCommand line = some (.ok i) := by
  unfold assembleLine lineCommand
  dsimp only
  split
  · next hempty => simp [hempty]
  · next hempty =>
    split
    · next j hj => simp [hempty, hj]
    · next e he => simp [he]
    · next hnone => simp [hnone, except_map_eq_ok]

theorem assembleWord_of_command {images : List Char → Option Image} {line : List Char} {i : Instr}
    (h : assembleLine images line = .ok (.command i)) : assembleWord line = some (encode i) := by
  have hline : assembleLine (fun _ => none) line = .ok (.command i) :=
    assembleLine_eq_command_iff.mpr (assembleLine_eq_command_iff.mp h)
  simp only [assembleWord, hline]

theorem except_bind_eq_ok {ε α β : Type} {x : Except ε α} {f : α → Except ε β} {b : β} :
    x >>= f = .ok b ↔ ∃ a, x = .ok a ∧ f a = .ok b := by
  cases x with
  | error e => simp [bind, Except.bind]
  | ok a => simp [bind, Except.bind]

theorem parseCount_fits {t : List Char} {n : Int} (h : parseCount t = .ok n) : StepCountFits n := by
  obtain ⟨m, -, hm⟩ := except_bind_eq_ok.mp h
  split at hm
  · next hfits => cases hm; exact hfits
  · cases hm

theorem countOperand_ok {build : Int → Instr} {ops : List (List Char)} {i : Instr}
    (h : countOperand build ops = .ok i) : ∃ n, StepCountFits n ∧ i = build n := by
  unfold countOperand at h
  split at h
  · obtain ⟨n, hn, hi⟩ := except_bind_eq_ok.mp h
    exact ⟨n, parseCount_fits hn, (Except.ok.inj hi).symm⟩
  · cases h

theorem pixelOperands_ok {build : BitVec 16 → BitVec 16 → Bool → Instr} {ops : List (List Char)} {i : Instr}
    (h : pixelOperands build ops = .ok i) : ∃ x y pen, i = build x y pen := by
  unfold pixelOperands at h
  split at h
  · obtain ⟨x, -, h⟩ := except_bind_eq_ok.mp h
    obtain ⟨y, -, h⟩ := except_bind_eq_ok.mp h
    exact ⟨x, y, true, (Except.ok.inj h).symm⟩
  · obtain ⟨x, -, h⟩ := except_bind_eq_ok.mp h
    obtain ⟨y, -, h⟩ := except_bind_eq_ok.mp h
    obtain ⟨pen, -, h⟩ := except_bind_eq_ok.mp h
    exact ⟨x, y, pen, (Except.ok.inj h).symm⟩
  · cases h

theorem rowOperands_ok {build : BitVec 16 → BitVec 16 → BitVec 16 → BitVec 3 → Instr} {ops : List (List Char)}
    {i : Instr} (h : rowOperands build ops = .ok i) : ∃ base stride len steps, i = build base stride len steps := by
  unfold rowOperands at h
  split at h
  · obtain ⟨base, -, h⟩ := except_bind_eq_ok.mp h
    obtain ⟨stride, -, h⟩ := except_bind_eq_ok.mp h
    obtain ⟨len, -, h⟩ := except_bind_eq_ok.mp h
    obtain ⟨steps, -, h⟩ := except_bind_eq_ok.mp h
    exact ⟨base, stride, len, steps, (Except.ok.inj h).symm⟩
  · cases h

theorem assembleCommand_wellFormed {mnemonic : List Char} {ops : List (List Char)} {i : Instr}
    (h : assembleCommand mnemonic ops = some (.ok i)) : i.wellFormed = true := by
  unfold assembleCommand at h
  split_ifs at h
  · cases h; rfl
  · cases h
  · obtain ⟨x, y, pen, rfl⟩ := pixelOperands_ok (Option.some.inj h)
    rfl
  · obtain ⟨x, y, pen, rfl⟩ := pixelOperands_ok (Option.some.inj h)
    rfl
  · cases h
  · split at h
    · obtain ⟨j, -, rfl⟩ := except_map_eq_ok.mp (Option.some.inj h)
      rfl
    · cases h
  · split at h
    · obtain ⟨j, -, h⟩ := except_bind_eq_ok.mp (Option.some.inj h)
      obtain ⟨v, -, h⟩ := except_bind_eq_ok.mp h
      cases h
      rfl
    · cases h
  · obtain ⟨base, stride, len, steps, rfl⟩ := rowOperands_ok (Option.some.inj h)
    rfl
  · obtain ⟨base, stride, len, steps, rfl⟩ := rowOperands_ok (Option.some.inj h)
    rfl
  · obtain ⟨n, hn, rfl⟩ := countOperand_ok (Option.some.inj h)
    exact decide_eq_true hn
  · obtain ⟨n, hn, rfl⟩ := countOperand_ok (Option.some.inj h)
    exact decide_eq_true hn

/-- Settles O21: an accepted command is well-formed, so its word decodes to it; the word does not depend on the
images. -/
theorem assembledCommandsDecodeBack : Obligations.AssembledCommandsDecodeBack := by
  unfold Obligations.AssembledCommandsDecodeBack
  intro images line i h
  obtain ⟨-, hcommand⟩ := assembleLine_eq_command_iff.mp h
  have hi := assembleCommand_wellFormed hcommand
  exact ⟨hi, _, assembleWord_of_command h, decode_encode hi⟩

/-- Settles O19, by running the assembler on each line and the decoder on each word. -/
theorem workedEncodingsAgree : Obligations.WorkedEncodingsAgree := by
  unfold Obligations.WorkedEncodingsAgree
  decide

end Sys2Proof.Machine
end

section
/-! The ring of a row (R80) as a cyclic sequence over the integers, and what it is to move it: places add up when moves
follow one another, and a move by known places has one result. -/

namespace Sys2Proof.Machine

/-! ### Bytes and ring bits at any integer place -/

/-- The byte of a row at place `k`, counted modulo its length. -/
def byteAt (r : List Byte) (k : Int) : Byte := r.getD (k % (r.length : Int)).toNat 0

/-- The ring bit of a row at place `i`, counted modulo the ring's length 8N. -/
def ringAt (r : List Byte) (i : Int) : Bool := ringBit r (i % (8 * (r.length : Int))).toNat

theorem byteAt_of_lt {r : List Byte} {k : Nat} (hk : k < r.length) : byteAt r k = r.getD k 0 := by
  rw [byteAt, Int.emod_eq_of_lt (by omega) (by omega), Int.toNat_natCast]

theorem ringAt_of_lt {r : List Byte} {j : Nat} (hj : j < 8 * r.length) : ringAt r j = ringBit r j := by
  rw [ringAt, Int.emod_eq_of_lt (by omega) (by omega), Int.toNat_natCast]

theorem ringAt_congr (r : List Byte) {i i' : Int} (h : i ≡ i' [ZMOD 8 * (r.length : Int)]) :
    ringAt r i = ringAt r i' := by
  rw [ringAt, ringAt, h]

theorem byteAt_congr (r : List Byte) {k k' : Int} (h : k ≡ k' [ZMOD (r.length : Int)]) :
    byteAt r k = byteAt r k' := by
  rw [byteAt, byteAt, h]

/-- The byte that R81 and R82 index modulo N. -/
theorem getD_mod_length (r : List Byte) (k : Nat) : r.getD (k % r.length) 0 = byteAt r k := rfl

/-- Every place is one of the row's own, up to whole turns. -/
theorem exists_place {r : List Byte} (hr : r ≠ []) (k : Int) :
    ∃ p < r.length, k ≡ (p : Nat) [ZMOD (r.length : Int)] := by
  have hN : 0 < (r.length : Int) := by simpa [List.length_pos_iff] using hr
  have hnonneg := Int.emod_nonneg k hN.ne'
  have hlt := Int.emod_lt_of_pos k hN
  refine ⟨(k % (r.length : Int)).toNat, by omega, ?_⟩
  rw [Int.toNat_of_nonneg hnonneg]
  exact (Int.mod_modEq k _).symm

theorem byteAt_mem {r : List Byte} (hr : r ≠ []) (k : Int) : byteAt r k ∈ r := by
  obtain ⟨p, hp, hk⟩ := exists_place hr k
  rw [byteAt_congr r hk, byteAt_of_lt hp, List.getD_eq_getElem _ _ hp]
  exact List.getElem_mem hp

/-- Ring bit `i` is bit `7 - (i mod 8)` of byte `i div 8`, at any place (R80). -/
theorem ringAt_eq_byteAt (r : List Byte) (i : Int) :
    ringAt r i = (byteAt r (i / 8)).getLsbD (7 - (i % 8).toNat) := by
  rcases Nat.eq_zero_or_pos r.length with hN | hN
  · simp [List.length_eq_zero_iff.mp hN, ringAt, ringBit, byteAt]
  · have hpos : 0 < 8 * (r.length : Int) := by omega
    have hnonneg := Int.emod_nonneg i hpos.ne'
    have hbit : i % (8 * (r.length : Int)) % 8 = i % 8 := Int.emod_emod_of_dvd i (Dvd.intro _ rfl)
    have hbyte : i % (8 * (r.length : Int)) / 8 = i / 8 % (r.length : Int) := by
      rw [Int.emod_def, Int.emod_def, ← Int.ediv_ediv_of_nonneg (by omega), mul_assoc]
      omega
    rw [ringAt, ringBit, byteAt, ← hbyte]
    congr 2 <;> omega

/-! ### Moving the ring -/

/-- The ring of `r'` is the ring of `r` moved `q` places toward higher index. -/
def RingMoves (q : Int) (r r' : List Byte) : Prop :=
  r'.length = r.length ∧ ∀ i, ringAt r' (i + q) = ringAt r i

theorem RingMoves.ringBit_eq {q : Int} {r r' : List Byte} (h : RingMoves q r r') {j : Nat} (hj : j < 8 * r.length) :
    ringBit r' (((j : Int) + q) % (8 * (r.length : Int))).toNat = ringBit r j := by
  rw [← h.1, ← ringAt_of_lt hj]
  exact h.2 j

theorem RingMoves.ringBit_eq_nat {q : Nat} {r r' : List Byte} (h : RingMoves q r r') {j : Nat}
    (hj : j < 8 * r.length) : ringBit r' ((j + q) % (8 * r.length)) = ringBit r j :=
  h.ringBit_eq hj

theorem RingMoves.trans {p q : Int} {r r' r'' : List Byte} (h : RingMoves p r r') (h' : RingMoves q r' r'') :
    RingMoves (p + q) r r'' :=
  ⟨h'.1.trans h.1, fun i => by rw [← add_assoc, h'.2, h.2]⟩

/-- A row whose ring reads the same everywhere is moved to itself. -/
theorem RingMoves.of_constant {r : List Byte} {c : Bool} (h : ∀ i, ringAt r i = c) (q : Int) : RingMoves q r r :=
  ⟨rfl, fun i => by rw [h, h]⟩

theorem RingMoves.refl (r : List Byte) : RingMoves 0 r r := ⟨rfl, fun i => by rw [add_zero]⟩

/-- A row is known by its length and its ring. -/
theorem eq_of_ringAt {r r' : List Byte} (hlen : r'.length = r.length) (h : ∀ i, ringAt r' i = ringAt r i) :
    r' = r := by
  refine List.ext_getElem hlen fun k hk' hk => BitVec.eq_of_getLsbD_eq fun b hb => ?_
  have hbit := h ((8 * k + (7 - b) : Nat) : Int)
  rw [ringAt_of_lt (by omega), ringAt_of_lt (by omega), ringBit, ringBit,
    show (8 * k + (7 - b)) / 8 = k by omega, show 7 - (8 * k + (7 - b)) % 8 = b by omega,
    List.getD_eq_getElem _ _ hk, List.getD_eq_getElem _ _ hk'] at hbit
  exact hbit

/-- Moves by numbers of places that differ by whole turns have the same result. -/
theorem RingMoves.unique {p q : Int} {r r' r'' : List Byte} (h : RingMoves p r r') (h' : RingMoves q r r'')
    (hpq : p ≡ q [ZMOD 8 * (r.length : Int)]) : r' = r'' := by
  refine eq_of_ringAt (h.1.trans h'.1.symm) fun i => ?_
  have hi : i ≡ i - q + p [ZMOD 8 * (r'.length : Int)] := by
    simpa [h.1] using (hpq.symm.add_left (i - q))
  rw [ringAt_congr r' hi, h.2, ← h'.2, sub_add_cancel]

/-! ### The number of 1 bits -/

/-- Over a whole period it does not matter where counting begins. -/
theorem countP_range_shift {p : Nat → Bool} {n : Nat} (hp : ∀ j, p (n + j) = p j) (t : Nat) :
    (List.range n).countP (fun j => p (t + j)) = (List.range n).countP p := by
  have h := congrArg (List.countP p) (congrArg List.range (Nat.add_comm t n))
  simp only [List.range_add, List.countP_append, List.countP_map, Function.comp_def, hp] at h
  exact Nat.add_left_cancel (h.trans (Nat.add_comm _ _))

theorem bitCount_eq_ringAt (r : List Byte) :
    bitCount r = (List.range (8 * r.length)).countP fun j : Nat => ringAt r j :=
  List.countP_congr fun j hj => by rw [ringAt_of_lt (List.mem_range.mp hj)]

theorem RingMoves.bitCount_eq {q : Int} {r r' : List Byte} (h : RingMoves q r r') :
    bitCount r' = bitCount r := by
  rcases Nat.eq_zero_or_pos r.length with hN | hN
  · rw [List.length_eq_zero_iff.mp hN, List.length_eq_zero_iff.mp (h.1.trans hN)]
  have hperiod (j : Nat) : ringAt r' ((8 * r.length + j : Nat) : Int) = ringAt r' j :=
    ringAt_congr r' (by simp [h.1, Int.ModEq])
  have hstart (j : Nat) : ringAt r' (((q % (8 * (r.length : Int))).toNat + j : Nat) : Int) = ringAt r j := by
    rw [← h.2 j, Nat.cast_add, Int.toNat_of_nonneg (Int.emod_nonneg q (by omega)), add_comm (j : Int)]
    exact ringAt_congr r' (by rw [h.1]; exact (Int.mod_modEq q _).add_right _)
  rw [bitCount_eq_ringAt, bitCount_eq_ringAt, h.1,
    ← countP_range_shift hperiod (q % (8 * (r.length : Int))).toNat]
  simp only [hstart]

/-! ### A row with a single 1 bit -/

/-- The row of `n + 1` bytes whose only 1 bit is ring bit 0. -/
def firstBitRow (n : Nat) : List Byte := 0x80#8 :: List.replicate n 0

theorem length_firstBitRow (n : Nat) : (firstBitRow n).length = n + 1 := by simp [firstBitRow]

theorem ringBit_firstBitRow (n j : Nat) : ringBit (firstBitRow n) j = decide (j = 0) := by
  have hbyte : ∀ m < 8, (0x80#8).getLsbD (7 - m) = decide (m = 0) := by decide
  unfold ringBit firstBitRow
  cases hj : j / 8 with
  | zero => rw [List.getD_cons_zero, hbyte _ (by omega), decide_eq_decide]; omega
  | succ k =>
    have hrest : (List.replicate n (0 : Byte)).getD k 0 = 0 := by simp
    rw [List.getD_cons_succ, hrest, eq_comm, BitVec.ofNat_eq_ofNat, BitVec.getLsbD_zero, decide_eq_false_iff_not]
    omega

theorem ringAt_firstBitRow (n : Nat) (i : Int) :
    ringAt (firstBitRow n) i = true ↔ 8 * ((n : Int) + 1) ∣ i := by
  have hnonneg := Int.emod_nonneg i (show 8 * ((n : Int) + 1) ≠ 0 by omega)
  rw [ringAt, length_firstBitRow, ringBit_firstBitRow, decide_eq_true_iff, Int.dvd_iff_emod_eq_zero, Nat.cast_succ]
  omega

/-- On it, moves with the same result differ by whole turns. -/
theorem firstBitRow_moves_dvd {n : Nat} {p q : Int} {r' : List Byte} (h : RingMoves p (firstBitRow n) r')
    (h' : RingMoves q (firstBitRow n) r') : 8 * ((n : Int) + 1) ∣ p - q := by
  rw [← ringAt_firstBitRow, ← h'.2, sub_add_cancel, ← zero_add p, h.2, ringAt_firstBitRow]
  exact dvd_zero _

end Sys2Proof.Machine
end

section
/-! RotR and RotL (R81, R82): their bytes, the moves of the ring they make, and their procedural forms. -/

namespace Sys2Proof.Machine

/-! ### Their bytes -/

theorem getD_rotR (r : List Byte) (s : Nat) {k : Nat} (hk : k < r.length) :
    (rotR r s).getD k 0 = (r.getD k 0 >>> s) ||| (r.getD ((k + (r.length - 1)) % r.length) 0 <<< (8 - s)) := by
  simp [rotR, hk]

theorem getD_rotL (r : List Byte) (s : Nat) {k : Nat} (hk : k < r.length) :
    (rotL r s).getD k 0 = (r.getD k 0 <<< s) ||| (r.getD ((k + 1) % r.length) 0 >>> (8 - s)) := by
  simp [rotL, hk]

theorem byteAt_rotR (r : List Byte) (s : Nat) (k : Int) :
    byteAt (rotR r s) k = (byteAt r k >>> s) ||| (byteAt r (k - 1) <<< (8 - s)) := by
  rcases eq_or_ne r [] with rfl | hr
  · simp [byteAt, rotR]
  · obtain ⟨p, hp, hk⟩ := exists_place hr k
    have hp' : p < (rotR r s).length := by rwa [length_rotR]
    have hk' : k ≡ p [ZMOD ((rotR r s).length : Int)] := by rwa [length_rotR]
    have hbefore : ((p + (r.length - 1) : Nat) : Int) ≡ p - 1 [ZMOD (r.length : Int)] := by
      rw [Nat.cast_add, Nat.cast_pred (by omega), add_sub_left_comm]
      exact Int.add_modEq_left
    rw [byteAt_congr (rotR r s) hk', byteAt_congr r hk, byteAt_congr r (hk.sub_right 1),
      byteAt_of_lt hp', byteAt_of_lt hp, getD_rotR r s hp, getD_mod_length,
      byteAt_congr r hbefore]

theorem byteAt_rotL (r : List Byte) (s : Nat) (k : Int) :
    byteAt (rotL r s) k = (byteAt r k <<< s) ||| (byteAt r (k + 1) >>> (8 - s)) := by
  rcases eq_or_ne r [] with rfl | hr
  · simp [byteAt, rotL]
  · obtain ⟨p, hp, hk⟩ := exists_place hr k
    have hp' : p < (rotL r s).length := by rwa [length_rotL]
    have hk' : k ≡ p [ZMOD ((rotL r s).length : Int)] := by rwa [length_rotL]
    rw [byteAt_congr (rotL r s) hk', byteAt_congr r hk, byteAt_congr r (hk.add_right 1),
      byteAt_of_lt hp', byteAt_of_lt hp, getD_rotL r s hp, getD_mod_length, Nat.cast_succ]

/-! ### Their moves -/

/-- Bit `7 - m` of a byte of RotR is a bit of the same byte for `s ≤ m`, and of the byte before it for `m < s`. -/
theorem rotR_moves (r : List Byte) {s : Nat} (hs : s ≤ 8) : RingMoves s r (rotR r s) := by
  refine ⟨length_rotR r s, fun i => ?_⟩
  rw [ringAt_eq_byteAt, ringAt_eq_byteAt, byteAt_rotR, BitVec.getLsbD_or, BitVec.getLsbD_ushiftRight,
    BitVec.getLsbD_shiftLeft]
  rcases Nat.lt_or_ge ((i + s) % 8).toNat s with hm | hm
  · have hhigh : ¬ 7 - ((i + s) % 8).toNat < 8 - s := by omega
    have hbyte : (i + s) / 8 - 1 = i / 8 := by omega
    have hbit : 7 - ((i + s) % 8).toNat - (8 - s) = 7 - (i % 8).toNat := by omega
    rw [BitVec.getLsbD_of_ge _ (s + _) (by omega), hbyte, hbit, decide_eq_false hhigh, decide_eq_true (by omega)]
    simp
  · have hlow : 7 - ((i + s) % 8).toNat < 8 - s := by omega
    have hbyte : (i + s) / 8 = i / 8 := by omega
    have hbit : s + (7 - ((i + s) % 8).toNat) = 7 - (i % 8).toNat := by omega
    rw [hbyte, hbit, decide_eq_true hlow]
    simp

/-- RotL by `s` is RotR by `8 - s` after a move of one whole byte down. -/
theorem rotL_moves (r : List Byte) {s : Nat} (hs : s ≤ 8) : RingMoves (-s) r (rotL r s) := by
  refine ⟨length_rotL r s, fun i => ?_⟩
  have hbyte (k : Int) : byteAt (rotL r s) k = byteAt (rotR r (8 - s)) (k + 1) := by
    rw [byteAt_rotL, byteAt_rotR, add_sub_cancel_right, BitVec.or_comm, Nat.sub_sub_self hs]
  have hring (j : Int) : ringAt (rotL r s) j = ringAt (rotR r (8 - s)) (j + 8) := by
    rw [ringAt_eq_byteAt, ringAt_eq_byteAt, hbyte, Int.add_emod_right, show (j + 8) / 8 = j / 8 + 1 by omega]
  rw [hring, ← (rotR_moves r (Nat.sub_le 8 s)).2 i]
  congr 1
  omega

/-! ### The procedural forms -/

theorem and_lowBits_shiftLeft (b : Byte) (s : Nat) :
    (b &&& BitVec.ofNat 8 (2 ^ s - 1)) <<< (8 - s) = b <<< (8 - s) := by
  refine BitVec.eq_of_getLsbD_eq fun i hi => ?_
  simp only [BitVec.getLsbD_shiftLeft, BitVec.getLsbD_and, BitVec.getLsbD_ofNat, Nat.testBit_two_pow_sub_one]
  grind

theorem and_highBits_ushiftRight (b : Byte) {s : Nat} (hs : s ≤ 8) :
    (b &&& BitVec.ofNat 8 ((2 ^ s - 1) * 2 ^ (8 - s))) >>> (8 - s) = b >>> (8 - s) := by
  refine BitVec.eq_of_getLsbD_eq fun i hi => ?_
  simp only [BitVec.getLsbD_ushiftRight, BitVec.getLsbD_and, BitVec.getLsbD_ofNat, Nat.testBit_mul_two_pow,
    Nat.testBit_two_pow_sub_one]
  have := BitVec.getLsbD_of_ge b (8 - s + i)
  grind

/-- Of the carried byte only the low bits count. -/
theorem getD_cons_and_lowBits (b : Byte) (rest : List Byte) (s k : Nat) :
    ((b &&& BitVec.ofNat 8 (2 ^ s - 1)) :: rest).getD k 0 <<< (8 - s) = (b :: rest).getD k 0 <<< (8 - s) := by
  cases k with
  | zero => exact and_lowBits_shiftLeft b s
  | succ k => rfl

@[simp] theorem length_rotRLoop (s : Nat) (lost : Byte) (r : List Byte) :
    (rotRLoop s lost r).1.length = r.length := by
  induction r generalizing lost with
  | nil => rfl
  | cons b rest ih => simp [rotRLoop, ih]

/-- The loop shifts each byte, with the low bits of the byte before it, or of `lost`, at the top. -/
theorem getD_rotRLoop (s : Nat) (lost : Byte) (r : List Byte) {k : Nat} (hk : k < r.length) :
    (rotRLoop s lost r).1.getD k 0 = (r.getD k 0 >>> s) ||| ((lost :: r).getD k 0 <<< (8 - s)) := by
  induction r generalizing lost k with
  | nil => cases hk
  | cons b rest ih =>
    cases k with
    | zero => rfl
    | succ k =>
      have := ih (b &&& BitVec.ofNat 8 (2 ^ s - 1)) (Nat.lt_of_succ_lt_succ hk)
      rwa [getD_cons_and_lowBits] at this

/-- What the loop carries out is the low bits of the last byte. -/
theorem rotRLoop_lost (s : Nat) (lost : Byte) (r : List Byte) :
    (rotRLoop s lost r).2 <<< (8 - s) = (lost :: r).getD r.length 0 <<< (8 - s) := by
  induction r generalizing lost with
  | nil => rfl
  | cons b rest ih => exact (ih _).trans (getD_cons_and_lowBits b rest s _)

@[simp] theorem length_rotLLoop (s : Nat) (r : List Byte) : (rotLLoop s r).1.length = r.length := by
  induction r with
  | nil => rfl
  | cons b rest ih => simp [rotLLoop, ih]

/-- What the loop carries out is the high bits of the first byte. -/
theorem rotLLoop_lost {s : Nat} (hs : s ≤ 8) (r : List Byte) : (rotLLoop s r).2 = r.getD 0 0 >>> (8 - s) := by
  cases r with
  | nil => simp [rotLLoop]
  | cons b rest => exact and_highBits_ushiftRight b hs

/-- The loop shifts each byte, with the high bits of the byte after it, if there is one, at the low end. -/
theorem getD_rotLLoop {s : Nat} (hs : s ≤ 8) (r : List Byte) (k : Nat) :
    (rotLLoop s r).1.getD k 0 = (r.getD k 0 <<< s) ||| (r.getD (k + 1) 0 >>> (8 - s)) := by
  induction r generalizing k with
  | nil => simp [rotLLoop]
  | cons b rest ih =>
    cases k with
    | zero => exact congrArg (b <<< s ||| ·) (rotLLoop_lost hs rest)
    | succ k => exact ih k

/-- Rows of one length with the same bytes are equal. -/
theorem row_ext {r r' : List Byte} (hlen : r'.length = r.length) (h : ∀ k, k < r.length → r'.getD k 0 = r.getD k 0) :
    r' = r :=
  List.ext_getElem hlen fun k hk' hk => by simpa [hk, hk'] using h k hk

theorem rotRProcedural_cons (b : Byte) (rest : List Byte) (s : Nat) :
    rotRProcedural (b :: rest) s
      = (b >>> s ||| (rotRLoop s (b &&& BitVec.ofNat 8 (2 ^ s - 1)) rest).2 <<< (8 - s))
        :: (rotRLoop s (b &&& BitVec.ofNat 8 (2 ^ s - 1)) rest).1 := by
  simp [rotRProcedural, rotRLoop]

theorem rotRProcedural_eq (r : List Byte) (s : Nat) : rotRProcedural r s = rotR r s := by
  cases r with
  | nil => rfl
  | cons b rest =>
    rw [rotRProcedural_cons]
    refine row_ext (by simp) fun k hk => ?_
    rw [length_rotR] at hk
    rw [getD_rotR _ _ hk, List.length_cons, Nat.add_sub_cancel]
    cases k with
    | zero =>
      rw [rotRLoop_lost, getD_cons_and_lowBits, Nat.zero_add, Nat.mod_eq_of_lt (Nat.lt_succ_self _)]
      rfl
    | succ k =>
      have hk := Nat.lt_of_succ_lt_succ hk
      rw [List.getD_cons_succ, getD_rotRLoop _ _ _ hk, getD_cons_and_lowBits, Nat.add_right_comm, Nat.add_assoc,
        Nat.add_mod_right, Nat.mod_eq_of_lt (by omega), List.getD_cons_succ]

theorem rotLProcedural_eq (r : List Byte) {s : Nat} (hs : s ≤ 8) : rotLProcedural r s = rotL r s := by
  refine row_ext (by simp [rotLProcedural]) fun k hk => ?_
  have hk' : k < (rotLLoop s r).1.length := by simpa using hk
  have hbyte := getD_rotLLoop hs r k
  rw [length_rotL] at hk
  rw [List.getD_eq_getElem _ _ hk'] at hbyte
  rw [getD_rotL _ _ hk, rotLProcedural, List.getD_eq_getElem _ _ (by simpa using hk'), List.getElem_modify, hbyte,
    rotLLoop_lost hs]
  split
  · next hlast =>
    rw [show k + 1 = r.length by omega, Nat.mod_self, List.getD_eq_default _ _ le_rfl]
    simp
  · rw [Nat.mod_eq_of_lt (by omega)]

end Sys2Proof.Machine
end

section
/-! The statements about the rotation unit (R81, R82, R85), by the moves of the ring that RotR and RotL make. -/

namespace Sys2Proof.Machine

/-- Settles O34: RotR's bytes move the ring, and the loop of the procedural form writes the same bytes. -/
theorem rotRMovesTheRingUp : Obligations.RotRMovesTheRingUp := by
  unfold Obligations.RotRMovesTheRingUp
  intro r s _ _ hs
  refine ⟨length_rotR r s, fun j hj => (rotR_moves r (by omega)).ringBit_eq_nat hj, fun k hk => ?_,
    rotRProcedural_eq r s⟩
  have hbyte := byteAt_rotR r s k
  rwa [byteAt_of_lt (by simpa using hk), byteAt_of_lt hk] at hbyte

/-- Settles O35: RotL's bytes move the ring, and the loop of the procedural form writes the same bytes. -/
theorem rotLMovesTheRingDown : Obligations.RotLMovesTheRingDown := by
  unfold Obligations.RotLMovesTheRingDown
  intro r s _ _ hs
  exact ⟨length_rotL r s, fun j hj => (rotL_moves r (by omega)).ringBit_eq hj, fun k hk => getD_rotL r s hk,
    rotLProcedural_eq r (by omega)⟩

/-! ### The laws of R85 -/

theorem rotL_rotR (r : List Byte) {s : Nat} (hs : s ≤ 8) : rotL (rotR r s) s = r :=
  ((rotR_moves r hs).trans (rotL_moves _ hs)).unique (RingMoves.refl r) (by rw [add_neg_cancel])

theorem rotR_rotL (r : List Byte) {s : Nat} (hs : s ≤ 8) : rotR (rotL r s) s = r :=
  ((rotL_moves r hs).trans (rotR_moves _ hs)).unique (RingMoves.refl r) (by rw [neg_add_cancel])

/-- The ring of a row of 0x00 or of 0xFF reads the same everywhere. -/
theorem ringAt_constant {r : List Byte} (hr : r ≠ []) (h : (∀ b ∈ r, b = 0x00) ∨ (∀ b ∈ r, b = 0xFF)) :
    ∃ c, ∀ i, ringAt r i = c := by
  rcases h with h | h
  · exact ⟨false, fun i => by rw [ringAt_eq_byteAt, h _ (byteAt_mem hr _)]; exact BitVec.getLsbD_zero⟩
  · refine ⟨true, fun i => ?_⟩
    rw [ringAt_eq_byteAt, h _ (byteAt_mem hr _), show (0xFF : Byte) = BitVec.allOnes 8 from rfl,
      BitVec.getLsbD_allOnes, decide_eq_true_iff]
    omega

theorem rotR_rotR_moves (r : List Byte) {s b : Nat} (hs : s ≤ 8) (hb : b ≤ 8) :
    RingMoves (s + b) r (rotR (rotR r s) b) :=
  (rotR_moves r hs).trans (rotR_moves _ hb)

theorem rotL_rotL_moves (r : List Byte) {s b : Nat} (hs : s ≤ 8) (hb : b ≤ 8) :
    RingMoves (-(s + b)) r (rotL (rotL r s) b) := by
  rw [neg_add]
  exact (rotL_moves r hs).trans (rotL_moves _ hb)

theorem rotR_rotR (r : List Byte) {s b : Nat} (h : s + b ≤ 8) : rotR (rotR r s) b = rotR r (s + b) :=
  (rotR_rotR_moves r (by omega) (by omega)).unique (rotR_moves r h) (by rw [Nat.cast_add])

theorem rotL_rotL (r : List Byte) {s b : Nat} (h : s + b ≤ 8) : rotL (rotL r s) b = rotL r (s + b) :=
  (rotL_rotL_moves r (by omega) (by omega)).unique (rotL_moves r h) (by rw [Nat.cast_add])

theorem rotR_eq_rotL_of_single {r : List Byte} (hr : r.length = 1) {s : Nat} (hs : s ≤ 8) :
    rotR r s = rotL r (8 - s) := by
  refine (rotR_moves r hs).unique (rotL_moves r (Nat.sub_le 8 s)) ?_
  rw [hr, Int.modEq_iff_dvd]
  omega

/-- RotL by `8 - s` after RotR by `s` moves the ring `2s - 8` places. -/
theorem rotL_complement_moves (r : List Byte) {s : Nat} (hs : s ≤ 8) :
    RingMoves (2 * s - 8) r (rotL (rotR r s) (8 - s)) := by
  have h := (rotR_moves r hs).trans (rotL_moves (rotR r s) (Nat.sub_le 8 s))
  rwa [show (s : Int) + -((8 - s : Nat) : Int) = 2 * s - 8 by omega] at h

/-- In a ring of more than 8 bits RotR by `s` and RotL by `8 - s` differ. -/
theorem exists_rotR_ne_rotL {N s : Nat} (hN : 2 ≤ N) (hs : s ≤ 8) :
    ∃ q : List Byte, q.length = N ∧ rotR q s ≠ rotL q (8 - s) := by
  refine ⟨firstBitRow (N - 1), by rw [length_firstBitRow]; omega, fun heq => ?_⟩
  have hdvd := firstBitRow_moves_dvd (rotR_moves _ hs) (heq ▸ rotL_moves _ (Nat.sub_le 8 s))
  have := Int.le_of_dvd (by omega) hdvd
  omega

/-- RotL by `8 - s` does not undo RotR by `s`, unless `s` is 4. -/
theorem exists_rotL_complement_ne {N s : Nat} (hN : 1 ≤ N) (hs : 1 ≤ s) (hs7 : s ≤ 7) (hs4 : s ≠ 4) :
    ∃ q : List Byte, q.length = N ∧ rotL (rotR q s) (8 - s) ≠ q := by
  refine ⟨firstBitRow (N - 1), by rw [length_firstBitRow]; omega, fun heq => ?_⟩
  have hmoves := rotL_complement_moves (firstBitRow (N - 1)) (show s ≤ 8 by omega)
  rw [heq] at hmoves
  have hdvd := (dvd_mul_right 8 _).trans (firstBitRow_moves_dvd hmoves (RingMoves.refl _))
  omega

/-- Settles O36: each law says how far the two sides move the ring. -/
theorem rotationLaws : Obligations.RotationLaws := by
  unfold Obligations.RotationLaws
  intro r s hr hs hs7
  have hs8 : s ≤ 8 := by omega
  have hR := rotR_moves r hs8
  have hL := rotL_moves r hs8
  refine ⟨⟨rotL_rotR r hs8, rotR_rotL r hs8⟩, fun hconst => ?_, fun b _ hb7 => ⟨fun j hj => ?_, fun hsum => ?_⟩,
    fun hsingle => rotR_eq_rotL_of_single hsingle hs8, fun hN => exists_rotR_ne_rotL hN hs8,
    fun j hj => (rotL_complement_moves r hs8).ringBit_eq hj,
    exists_rotL_complement_ne (List.length_pos_iff.mpr hr) hs hs7, hR.bitCount_eq, hL.bitCount_eq⟩
  · obtain ⟨c, hc⟩ := ringAt_constant hr hconst
    exact ⟨hR.unique (.of_constant hc _) rfl, hL.unique (.of_constant hc _) rfl⟩
  · have hb8 : b ≤ 8 := by omega
    exact ⟨(rotR_rotR_moves r hs8 hb8).ringBit_eq_nat hj, (rotL_rotL_moves r hs8 hb8).ringBit_eq hj⟩
  · exact ⟨rotR_rotR r (by omega), rotL_rotL r (by omega)⟩

end Sys2Proof.Machine
end

section
/-! The commands ROTR and ROTL (R83, R84): the first check that fails, and the row and the other bytes of a success. -/

namespace Sys2Proof.Machine

/-! ### The checks -/

/-- The three argument checks are one, before the check of the range. -/
theorem rotationError_eq (p : Params) (d : RowDesc) (steps : Nat) :
    rotationError p d steps
      = if steps = 0 ∨ d.len = 0 ∨ (2 ≤ d.len ∧ d.stride = 0) then some .arg
        else if d.base + (d.len - 1) * d.stride ≥ p.size then some .range
        else none := by
  rw [ite_or, ite_or]
  rfl

/-- Of the step count the checks only ask whether it is 0. -/
theorem rotationError_congr {p : Params} {d : RowDesc} {steps steps' : Nat} (h : steps ≠ 0) (h' : steps' ≠ 0) :
    rotationError p d steps = rotationError p d steps' := by
  rw [rotationError, rotationError, if_neg h, if_neg h']

/-! ### The commands -/

theorem rotateRow_of_error {rot : List Byte → Nat → List Byte} {d : RowDesc} {steps : Nat} {s : State} {e : ErrCode}
    (h : rotationError s.params d steps = some e) :
    rotateRow rot d steps s = .next (s.withStatus (Status.failed e)) := by
  rw [rotateRow, h]
  rfl

theorem rotateRow_of_none {rot : List Byte → Nat → List Byte} {d : RowDesc} {steps : Nat} {s : State}
    (h : rotationError s.params d steps = none) :
    rotateRow rot d steps s = .next (s.done (updateRow (fun row => rot row steps) d s.fb) s.result) := by
  rw [rotateRow, h]
  rfl

/-- Two rotations that take the row to the same bytes do the same. -/
theorem rotateRow_congr {rot rot' : List Byte → Nat → List Byte} {d : RowDesc} {steps steps' : Nat} {s : State}
    (h : steps ≠ 0) (h' : steps' ≠ 0) (hrow : rot (readRow d s.fb) steps = rot' (readRow d s.fb) steps') :
    rotateRow rot d steps s = rotateRow rot' d steps' s := by
  rw [rotateRow, rotateRow, rotationError_congr h h', updateRow, updateRow, hrow]

/-- What R83 and R84 say in the same words: the checks in their order, then the row becomes `rot` of it and every other
byte stays. -/
def RotatesTheRow (rot : List Byte → Nat → List Byte) (d : RowDesc) (steps : Nat) (s : State) : Prop :=
  let badArg := steps = 0 ∨ d.len = 0 ∨ (2 ≤ d.len ∧ d.stride = 0)
  let outside := d.base + (d.len - 1) * d.stride ≥ s.params.size
  (badArg → ∃ t, rotateRow rot d steps s = .next t ∧ FailedWith .arg s t) ∧
  (¬ badArg → outside → ∃ t, rotateRow rot d steps s = .next t ∧ FailedWith .range s t) ∧
  (¬ badArg → ¬ outside → ∃ t, rotateRow rot d steps s = .next t ∧
    readRow d t.fb = rot (readRow d s.fb) steps ∧
    FbSameOutside (fun a => ∃ k, k < d.len ∧ a = d.base + k * d.stride) s t ∧
    t.result = s.result ∧ Succeeded s t)

theorem rotatesTheRow {rot : List Byte → Nat → List Byte} (hrot : ∀ r n, (rot r n).length = r.length) (d : RowDesc)
    (steps : Nat) (s : State) : RotatesTheRow rot d steps s := by
  have herr := rotationError_eq s.params d steps
  refine ⟨fun hbad => ⟨_, rotateRow_of_error (herr.trans (if_pos hbad)), rfl, rfl, rfl, rfl, rfl, rfl, rfl⟩,
    fun hgood hout =>
      ⟨_, rotateRow_of_error (herr.trans ((if_neg hgood).trans (if_pos hout))), rfl, rfl, rfl, rfl, rfl, rfl, rfl⟩,
    fun hgood hin => ?_⟩
  have hlen : (rot (readRow d s.fb) steps).length = d.len := (hrot _ _).trans (length_readRow d s.fb)
  refine ⟨_, rotateRow_of_none (herr.trans ((if_neg hgood).trans (if_neg hin))),
    readRow_updateRow (fun row => rot row steps) d s.fb hlen (by omega), fun a ha => ?_, rfl, rfl, rfl, rfl, rfl, rfl⟩
  exact read_updateRow_outside (fun row => rot row steps) d s.fb hlen a fun k hk heq => ha ⟨k, hk, heq⟩

/-- The argument checks read operands as numbers. -/
theorem badArg_iff (steps : BitVec 3) (len stride : BitVec 16) :
    (steps = 0 ∨ len = 0 ∨ (2 ≤ len.toNat ∧ stride = 0))
      ↔ (steps.toNat = 0 ∨ len.toNat = 0 ∨ (2 ≤ len.toNat ∧ stride.toNat = 0)) := by
  simp [BitVec.toNat_eq]

/-- Settles O37: the statement of the shared rotation, for RotR. -/
theorem rotrRotatesTheRow : Obligations.RotrRotatesTheRow := by
  unfold Obligations.RotrRotatesTheRow
  refine ⟨fun w base stride len steps => decode_ok_iff_of_wellFormed rfl, fun s base stride len steps => ?_⟩
  simp only [badArg_iff]
  exact rotatesTheRow length_rotR ⟨base.toNat, stride.toNat, len.toNat⟩ steps.toNat s

/-- Settles O38: the statement of the shared rotation, for RotL; on one byte RotR by `8 - steps` gives the same row. -/
theorem rotlRotatesTheRow : Obligations.RotlRotatesTheRow := by
  unfold Obligations.RotlRotatesTheRow
  refine ⟨fun w base stride len steps => decode_ok_iff_of_wellFormed rfl, fun s base stride steps hsteps => ?_,
    fun s base stride len steps => ?_⟩
  · have hpos : steps.toNat ≠ 0 := by simpa [BitVec.toNat_eq] using hsteps
    have hcomplement : (BitVec.ofNat 3 (8 - steps.toNat)).toNat = 8 - steps.toNat := by
      rw [BitVec.toNat_ofNat]; omega
    refine rotateRow_congr hpos (by omega) ?_
    rw [hcomplement, rotR_eq_rotL_of_single (length_readRow _ _) (Nat.sub_le _ _), Nat.sub_sub_self (by omega)]
  · simp only [badArg_iff]
    exact rotatesTheRow length_rotL ⟨base.toNat, stride.toNat, len.toNat⟩ steps.toNat s

end Sys2Proof.Machine
end

section
/-! The statements about CLEAR, SETPX, XLATE, READB and WRITEB (R90 to R94): the error of the check each one makes, and
the effect where the check passes. -/

namespace Sys2Proof.Machine

/-- A command whose effect is an error reports it and changes STATUS alone (R142). -/
theorem exec_failedWith {i : Instr} {s : State} {e : ErrCode} (h : effect s.params s.fb s.result i = .error e) :
    ∃ t, exec i s = .next t ∧ FailedWith e s t := by
  refine ⟨s.withStatus (Status.failed e), ?_, rfl, rfl, rfl, rfl, rfl, rfl, rfl⟩
  rw [exec_eq_finish, h]
  rfl

/-! ### The effects where their check is decided -/

theorem effect_setpx_of_error {p : Params} {x y : BitVec 16} {e : ErrCode}
    (h : translatePixel p x.toNat y.toNat = .error e) (m : Memory) (r : RegWord) (pen : Bool) :
    effect p m r (.setpx x y pen) = .error e := by
  simp only [effect, h, Except.map]

theorem effect_xlate_of_error {p : Params} {x y : BitVec 16} {e : ErrCode}
    (h : translatePixel p x.toNat y.toNat = .error e) (m : Memory) (r : RegWord) :
    effect p m r (.xlate x y) = .error e := by
  simp only [effect, h, Except.map]

theorem effect_xlate_of_translate {p : Params} {x y : BitVec 16} {idx bit : Nat}
    (h : translatePixel p x.toNat y.toNat = .ok (idx, bit)) (m : Memory) (r : RegWord) :
    effect p m r (.xlate x y) = .ok (m, translationWord idx bit) := by
  simp only [effect, h, Except.map]

theorem effect_readb_outside {p : Params} {j : BitVec 16} (h : j.toNat ≥ p.size) (m : Memory) (r : RegWord) :
    effect p m r (.readb j) = .error .range := if_pos h

theorem effect_readb_inside {p : Params} {j : BitVec 16} (h : j.toNat < p.size) (m : Memory) (r : RegWord) :
    effect p m r (.readb j) = .ok (m, (Memory.read m j.toNat).setWidth 32) := if_neg (Nat.not_le.mpr h)

theorem effect_writeb_outside {p : Params} {j : BitVec 16} (h : j.toNat ≥ p.size) (m : Memory) (r : RegWord)
    (v : Byte) : effect p m r (.writeb j v) = .error .range := if_pos h

theorem effect_writeb_inside {p : Params} {j : BitVec 16} (h : j.toNat < p.size) (m : Memory) (r : RegWord)
    (v : Byte) : effect p m r (.writeb j v) = .ok (Memory.write m j.toNat v, r) := if_neg (Nat.not_le.mpr h)

/-! ### The fields of a translation are wide enough -/

theorem translatePixel_bit_lt {p : Params} {x y idx bit : Nat} (h : translatePixel p x y = .ok (idx, bit)) :
    bit < 8 := by
  obtain ⟨-, rfl, -⟩ := translatePixel_ok h
  simp only [pixelBit]
  omega

/-- SIZE is at most 256 * 256 (R5), so every index fits RESULT[15:0]. -/
theorem translatePixel_index_lt {p : Params} {x y idx bit : Nat} (hp : p.legal)
    (h : translatePixel p x y = .ok (idx, bit)) : idx < 2 ^ 16 := by
  obtain ⟨-, hpages, -, hcolumns⟩ := hp
  obtain ⟨-, -, hidx⟩ := translatePixel_ok h
  have hsize : p.size ≤ 256 * 256 := Nat.mul_le_mul hpages hcolumns
  exact hidx.trans_le hsize

/-! ### The statements -/

/-- Settles O27: CLEAR's effect is the empty list of non-zero bytes, on every FB. -/
theorem clearZeroesTheFramebuffer : Obligations.ClearZeroesTheFramebuffer := by
  unfold Obligations.ClearZeroesTheFramebuffer
  refine ⟨fun w => decode_ok_iff_of_wellFormed rfl, fun s => ?_⟩
  have hexec : exec .clear s = .next (s.done Memory.zero s.result) := exec_of_effect rfl
  exact ⟨_, hexec, Memory.read_zero, rfl, rfl, ⟨rfl, rfl, rfl, rfl, rfl⟩, exec_idempotent clear_effectIdempotent hexec⟩

/-- Settles O28: SETPX writes to the translated index the byte there with the translated bit replaced. -/
theorem setpxWritesOneBit : Obligations.SetpxWritesOneBit := by
  unfold Obligations.SetpxWritesOneBit
  refine ⟨fun w x y pen => decode_ok_iff_of_wellFormed rfl, fun s x y pen =>
    ⟨fun e herr => exec_failedWith (effect_setpx_of_error herr _ _ pen), fun idx bit htr => ?_⟩⟩
  have hexec := exec_of_effect (effect_setpx_of_translate htr s.fb s.result pen)
  refine ⟨_, hexec, ?_, fun b hb => ?_, fun a ha => ?_, rfl, ⟨rfl, rfl, rfl, rfl, rfl⟩,
    exec_idempotent (setpx_effectIdempotent x y pen) hexec⟩
  · rw [State.done_fb, Memory.read_write, if_pos rfl, getLsbD_penByte, if_pos ⟨rfl, translatePixel_bit_lt htr⟩]
  · rw [State.done_fb, Memory.read_write, if_pos rfl, getLsbD_penByte, if_neg fun h => hb h.1]
  · rw [State.done_fb, Memory.read_write, if_neg ha]

/-- Settles O30: the two fields of RESULT are the index and the bit modulo their widths, and both are below them. -/
theorem xlateAnswersTheTranslation : Obligations.XlateAnswersTheTranslation := by
  unfold Obligations.XlateAnswersTheTranslation
  refine ⟨fun w x y => decode_ok_iff_of_wellFormed rfl, fun s x y hlegal =>
    ⟨fun e herr => exec_failedWith (effect_xlate_of_error herr _ _), fun idx bit htr => ?_⟩⟩
  obtain ⟨-, -, hidx⟩ := translatePixel_ok htr
  refine ⟨_, exec_of_effect (effect_xlate_of_translate htr s.fb s.result), ?_, ?_, translationWord_above idx bit,
    hidx, rfl, rfl, rfl, rfl, rfl, rfl⟩
  · rw [State.done_result, translationWord_index, BitVec.toNat_ofNat,
      Nat.mod_eq_of_lt (translatePixel_index_lt hlegal htr)]
  · rw [State.done_result, translationWord_bit, BitVec.toNat_ofNat, Nat.mod_eq_of_lt (translatePixel_bit_lt htr)]

/-- Settles O31: READB checks its index against SIZE and zero-extends the byte there into RESULT. -/
theorem readbAnswersTheByte : Obligations.ReadbAnswersTheByte := by
  unfold Obligations.ReadbAnswersTheByte
  refine ⟨fun w i => decode_ok_iff_of_wellFormed rfl, fun s i =>
    ⟨fun hout => exec_failedWith (effect_readb_outside hout _ _), fun hin => ?_⟩⟩
  exact ⟨_, exec_of_effect (effect_readb_inside hin s.fb s.result), setWidth_byte_low _, setWidth_byte_above _, rfl,
    rfl, rfl, rfl, rfl, rfl⟩

/-- Settles O32: WRITEB checks its index against SIZE and is one write to it. -/
theorem writebWritesOneByte : Obligations.WritebWritesOneByte := by
  unfold Obligations.WritebWritesOneByte
  refine ⟨fun w i v => decode_ok_iff_of_wellFormed rfl, fun s i v =>
    ⟨fun hout => exec_failedWith (effect_writeb_outside hout _ _ v), fun hin => ?_⟩⟩
  have hexec := exec_of_effect (effect_writeb_inside hin s.fb s.result v)
  refine ⟨_, hexec, ?_, fun a ha => ?_, rfl, ⟨rfl, rfl, rfl, rfl, rfl⟩,
    exec_idempotent (writeb_effectIdempotent i v) hexec⟩
  · rw [State.done_fb, Memory.read_write, if_pos rfl]
  · rw [State.done_fb, Memory.read_write, if_neg ha]

end Sys2Proof.Machine
end

section
/-! RingRot (R110): the whole-byte move and the bit rotation that follows it as moves of the ring. -/

namespace Sys2Proof.Machine

/-! ### Whole-byte moves -/

theorem getD_moveBytes (r : List Byte) (q : Int) {k : Nat} (hk : k < r.length) :
    (moveBytes r q).getD k 0 = byteAt r (k - q) := by
  simp [moveBytes, byteAt, hk]

theorem byteAt_moveBytes (r : List Byte) (q k : Int) : byteAt (moveBytes r q) k = byteAt r (k - q) := by
  rcases eq_or_ne r [] with rfl | hr
  · simp [byteAt, moveBytes]
  · obtain ⟨p, hp, hk⟩ := exists_place hr k
    have hk' : k ≡ p [ZMOD ((moveBytes r q).length : Int)] := by rwa [length_moveBytes]
    rw [byteAt_congr _ hk', byteAt_of_lt (by rwa [length_moveBytes]), getD_moveBytes r q hp,
      byteAt_congr r (hk.sub_right q)]

/-- A byte is eight places of the ring. -/
theorem moveBytes_moves (r : List Byte) (q : Int) : RingMoves (8 * q) r (moveBytes r q) := by
  refine ⟨length_moveBytes r q, fun i => ?_⟩
  have hbyte : (i + 8 * q) / 8 - q = i / 8 := by omega
  rw [ringAt_eq_byteAt, ringAt_eq_byteAt, byteAt_moveBytes, hbyte, Int.add_mul_emod_self_left]

theorem moveBytes_congr {r : List Byte} {q q' : Int} (h : q ≡ q' [ZMOD (r.length : Int)]) :
    moveBytes r q = moveBytes r q' :=
  (moveBytes_moves r q).unique (moveBytes_moves r q') h.mul_left'

/-- A whole-byte move is one of the library's list rotations, which go toward lower index. -/
theorem moveBytes_eq_rotate (r : List Byte) (q : Int) :
    moveBytes r q = r.rotate (-q % (r.length : Int)).toNat := by
  refine row_ext (by simp) fun k hk => ?_
  rw [List.length_rotate] at hk
  have hN : (0 : Int) < r.length := by omega
  have hplace : ((k + (-q % (r.length : Int)).toNat : Nat) : Int) ≡ k - q [ZMOD (r.length : Int)] := by
    rw [Nat.cast_add, Int.toNat_of_nonneg (Int.emod_nonneg _ hN.ne'), sub_eq_add_neg]
    exact (Int.mod_modEq _ _).add_left _
  rw [getD_moveBytes r q hk, ← byteAt_congr r hplace, ← getD_mod_length,
    List.getD_eq_getElem _ _ (Nat.mod_lt _ (by omega)), List.getD_eq_getElem _ _ (by rwa [List.length_rotate]),
    List.getElem_rotate]

theorem moveBytes_perm (r : List Byte) (q : Int) : (moveBytes r q).Perm r := by
  rw [moveBytes_eq_rotate]
  exact List.rotate_perm r _

/-! ### RingRot -/

/-- Whole turns do not count. -/
theorem RingMoves.congr {p q : Int} {r r' : List Byte} (h : RingMoves p r r')
    (hpq : q ≡ p [ZMOD 8 * (r.length : Int)]) : RingMoves q r r' :=
  ⟨h.1, fun i => by rw [← h.2 i]; exact ringAt_congr r' (by rw [h.1]; exact hpq.add_left i)⟩

theorem ringAt_nil (i : Int) : ringAt [] i = false := by simp [ringAt, ringBit]

/-- A whole-byte move by `k div 8` and a rotation by `k mod 8` are `k` places together. -/
theorem ringRot_moves (r : List Byte) (n : Int) : RingMoves n r (ringRot r n) := by
  rcases eq_or_ne r [] with rfl | hr
  · rw [List.eq_nil_of_length_eq_zero (length_ringRot [] n)]
    exact .of_constant ringAt_nil n
  have hN : 8 * (r.length : Int) ≠ 0 := by simpa using hr
  have hk : n ≡ ((n % (8 * (r.length : Int))).toNat : Int) [ZMOD 8 * (r.length : Int)] := by
    rw [Int.toNat_of_nonneg (Int.emod_nonneg _ hN)]
    exact (Int.mod_modEq _ _).symm
  refine RingMoves.congr ?_ hk
  rw [ringRot]
  generalize (n % (8 * (r.length : Int))).toNat = k
  have hbytes := moveBytes_moves r (k / 8 : Nat)
  split
  · have hplaces : (k : Int) = 8 * (k / 8 : Nat) := by omega
    rwa [hplaces]
  · have hplaces : (k : Int) = 8 * (k / 8 : Nat) + (k % 8 : Nat) := by omega
    rw [hplaces]
    exact hbytes.trans (rotR_moves _ (by omega))

/-- Settles O39: RingRot moves the ring, and a move by known places has one result. -/
theorem ringRotMovesTheRing : Obligations.RingRotMovesTheRing := by
  unfold Obligations.RingRotMovesTheRing
  intro r n _
  have hmoves := ringRot_moves r n
  refine ⟨hmoves.1, fun j hj => hmoves.ringBit_eq hj, fun h1 h7 => ?_, fun h7 h1 => ?_, fun hturn => ?_⟩
  · exact hmoves.unique (rotR_moves r (by omega)) (by rw [Int.toNat_of_nonneg (by omega)])
  · exact hmoves.unique (rotL_moves r (by omega)) (by rw [Int.toNat_of_nonneg (by omega), neg_neg])
  · exact hmoves.unique (RingMoves.refl r) (by rw [Int.ModEq, hturn, Int.zero_emod])

end Sys2Proof.Machine
end

section
/-! Rows that tile the framebuffer, each moved as a ring by the same number of places: what a scroll does, told the same
way for VSCROLL's column strips and HSCROLL's page slices. -/

namespace Sys2Proof.Machine

/-- The rows have `N` bytes each, all of them inside the map of `size` bytes, and every byte of the map is in one. -/
structure Tiles (size N : Nat) (rows : List RowDesc) : Prop where
  len : ∀ d ∈ rows, d.len = N
  inside : ∀ d ∈ rows, ∀ k < d.len, d.index k < size
  cover : ∀ a < size, ∃ d ∈ rows, ∃ k < d.len, d.index k = a

/-- Framebuffers in which every row of a tiling, and every byte outside the map, reads the same. -/
theorem Tiles.read_eq {size N : Nat} {rows : List RowDesc} (ht : Tiles size N rows) {m m' : Memory}
    (hrows : ∀ d ∈ rows, readRow d m = readRow d m') (hout : ∀ a, ¬ a < size → Memory.read m a = Memory.read m' a)
    (a : Nat) : Memory.read m a = Memory.read m' a := by
  by_cases ha : a < size
  · obtain ⟨d, hd, k, hk, rfl⟩ := ht.cover a ha
    rw [← getD_readRow d m k hk 0, hrows d hd, getD_readRow d m' k hk]
  · exact hout a ha

/-- From `m` to `m'` the ring of every row moves `q` places, and every byte outside the map stays. -/
structure RowsMove (size : Nat) (rows : List RowDesc) (q : Int) (m m' : Memory) : Prop where
  ring : ∀ d ∈ rows, RingMoves q (readRow d m) (readRow d m')
  outside : ∀ a, ¬ a < size → Memory.read m' a = Memory.read m a

section Moves

variable {size N : Nat} {rows : List RowDesc} {p q : Int} {m m' m'' : Memory}

theorem RowsMove.refl : RowsMove size rows 0 m m := ⟨fun _ _ => RingMoves.refl _, fun _ _ => rfl⟩

theorem RowsMove.trans (h : RowsMove size rows p m m') (h' : RowsMove size rows q m' m'') :
    RowsMove size rows (p + q) m m'' :=
  ⟨fun d hd => (h.ring d hd).trans (h'.ring d hd), fun a ha => (h'.outside a ha).trans (h.outside a ha)⟩

/-- Moves of tiling rows that differ by whole turns have the same result. -/
theorem RowsMove.unique (ht : Tiles size N rows) (h : RowsMove size rows p m m') (h' : RowsMove size rows q m m'')
    (hpq : p ≡ q [ZMOD 8 * (N : Int)]) (a : Nat) : Memory.read m' a = Memory.read m'' a := by
  refine ht.read_eq (fun d hd => ?_) (fun a ha => (h.outside a ha).trans (h'.outside a ha).symm) a
  exact (h.ring d hd).unique (h'.ring d hd) (by rwa [length_readRow, ht.len d hd])

/-- A picture of equal bytes 0x00 or 0xFF is moved to itself. -/
theorem RowsMove.of_constant (ht : Tiles size N rows) {v : Byte} (hv : v = 0x00 ∨ v = 0xFF)
    (hm : ∀ a < size, Memory.read m a = v) (q : Int) : RowsMove size rows q m m := by
  refine ⟨fun d hd => ?_, fun _ _ => rfl⟩
  have hbytes : ∀ b ∈ readRow d m, b = v := fun b hb => by
    obtain ⟨k, hk, rfl⟩ := List.getElem_of_mem hb
    rw [length_readRow] at hk
    rw [getElem_readRow]
    exact hm _ (ht.inside d hd k hk)
  rcases eq_or_ne (readRow d m) [] with hr | hr
  · rw [hr]
    exact .of_constant ringAt_nil q
  · obtain ⟨c, hc⟩ := ringAt_constant hr (by rcases hv with rfl | rfl; exacts [.inl hbytes, .inr hbytes])
    exact .of_constant hc q

end Moves

/-- The picture whose only set bit is the first of index 0. -/
def firstBitFb : Memory := [(0, 0x80)]

/-- In it a row from index 0 on has its ring bit 0 set, and no other. -/
theorem readRow_firstBitFb {d : RowDesc} (hbase : d.base = 0) (hstride : 1 ≤ d.stride) {n : Nat} (hlen : d.len = n + 1) :
    readRow d firstBitFb = firstBitRow n := by
  refine row_ext (by rw [length_readRow, length_firstBitRow, hlen]) fun k hk => ?_
  rw [length_firstBitRow, ← hlen] at hk
  rw [getD_readRow d _ k hk, RowDesc.index, hbase, firstBitFb, Memory.read_cons]
  cases k with
  | zero => simp [firstBitRow]
  | succ k =>
    have hpos : 0 < (k + 1) * d.stride := Nat.mul_pos k.succ_pos hstride
    rw [if_neg (by omega)]
    simp [firstBitRow]

/-- On it, moves with the same result differ by whole turns. -/
theorem RowsMove.dvd_of_firstBitFb {size N : Nat} {rows : List RowDesc} (ht : Tiles size N rows) {d : RowDesc}
    (hd : d ∈ rows) (hbase : d.base = 0) (hstride : 1 ≤ d.stride) (hN : 1 ≤ N) {q : Int} {m' : Memory}
    (h : RowsMove size rows q firstBitFb m') (hm' : ∀ a, Memory.read m' a = Memory.read firstBitFb a) :
    8 * (N : Int) ∣ q := by
  obtain ⟨n, rfl⟩ := Nat.exists_eq_add_of_le' hN
  have hrow := readRow_firstBitFb hbase hstride (ht.len d hd)
  have hmoves := h.ring d hd
  rw [readRow_congr fun k _ => hm' (d.index k), hrow] at hmoves
  simpa using firstBitRow_moves_dvd hmoves (RingMoves.refl _)

/-! ### Commands that move rows -/

/-- For the parameters `p` the command `cmd n` moves the ring of every row by `n` times `unit` places, and `turn` counts
make whole turns. -/
structure Scrolls (p : Params) (cmd : Int → Instr) (rows : List RowDesc) (N : Nat) (unit turn : Int) : Prop where
  tiles : Tiles p.size N rows
  moves : ∀ s t n, s.params = p → exec (cmd n) s = .next t → RowsMove p.size rows (unit * n) s.fb t.fb
  turns : ∀ n, 8 * (N : Int) ∣ unit * n ↔ turn ∣ n

section Laws

variable {p : Params} {cmd : Int → Instr} {rows : List RowDesc} {N : Nat} {unit turn : Int} {s t u : State}
  (h : Scrolls p cmd rows N unit turn)
include h

theorem Scrolls.places_congr {m n : Int} (hmn : m % turn = n % turn) : unit * m ≡ unit * n [ZMOD 8 * (N : Int)] := by
  rw [Int.modEq_iff_dvd, ← mul_sub, h.turns]
  exact Int.modEq_iff_dvd.mp hmn

theorem Scrolls.places_of_turn {n : Int} (hturn : n % turn = 0) : unit * n ≡ 0 [ZMOD 8 * (N : Int)] :=
  Int.modEq_zero_iff_dvd.mpr ((h.turns n).mpr (Int.dvd_of_emod_eq_zero hturn))

/-- Two scrolls one after the other move by the sum of their counts. -/
theorem Scrolls.moves_twice {a b : Int} (hp : s.params = p) (ha : exec (cmd a) s = .next t)
    (hb : exec (cmd b) t = .next u) : RowsMove p.size rows (unit * (a + b)) s.fb u.fb := by
  obtain ⟨hparams, -, -⟩ := exec_sameOutside ha
  rw [mul_add]
  exact (h.moves s t a hp ha).trans (h.moves t u b (hparams.trans hp) hb)

/-- A count of whole turns changes no byte. -/
theorem Scrolls.keeps_of_turn {n : Int} (hp : s.params = p) (hn : exec (cmd n) s = .next t) (hturn : n % turn = 0)
    (a : Nat) : Memory.read t.fb a = Memory.read s.fb a :=
  (h.moves s t n hp hn).unique h.tiles RowsMove.refl (h.places_of_turn hturn) a

/-- An empty or full picture is unchanged (R113 law 5). -/
theorem Scrolls.keeps_constant {n : Int} (hp : s.params = p) (hn : exec (cmd n) s = .next t) {v : Byte}
    (hv : v = 0x00 ∨ v = 0xFF) (hs : ∀ a < p.size, Memory.read s.fb a = v) (a : Nat) :
    Memory.read t.fb a = Memory.read s.fb a :=
  (h.moves s t n hp hn).unique h.tiles (RowsMove.of_constant h.tiles hv hs _) rfl a

/-- Two scrolls give the FB of one scroll by any count congruent to the sum (R113 law 2). -/
theorem Scrolls.compose {a b m : Int} {v : State} (hp : s.params = p) (hm : m % turn = (a + b) % turn)
    (ha : exec (cmd a) s = .next t) (hb : exec (cmd b) t = .next u) (hv : exec (cmd m) s = .next v) (i : Nat) :
    Memory.read u.fb i = Memory.read v.fb i :=
  (h.moves_twice hp ha hb).unique h.tiles (h.moves s v m hp hv) (h.places_congr hm.symm) i

/-- Two scrolls restore every FB exactly when their sum is whole turns (R113 law 1): a picture with one set bit tells. -/
theorem Scrolls.restore_iff {d : RowDesc} (hd : d ∈ rows) (hbase : d.base = 0) (hstride : 1 ≤ d.stride) (hN : 1 ≤ N)
    (a b : Int) :
    (∀ s t u : State, s.params = p → exec (cmd a) s = .next t → exec (cmd b) t = .next u →
      ∀ i, Memory.read u.fb i = Memory.read s.fb i) ↔ (a + b) % turn = 0 := by
  constructor
  · intro hrestore
    obtain ⟨t, ht, -⟩ := everyTransactionCompletes.2 ((State.resetOf p).withFb firstBitFb) (cmd a)
    obtain ⟨u, hu, -⟩ := everyTransactionCompletes.2 t (cmd b)
    exact Int.emod_eq_zero_of_dvd ((h.turns _).mp
      ((h.moves_twice rfl ht hu).dvd_of_firstBitFb h.tiles hd hbase hstride hN (hrestore _ t u rfl ht hu)))
  · intro hturn s t u hp ht hu
    exact (h.moves_twice hp ht hu).unique h.tiles RowsMove.refl (h.places_of_turn hturn)

end Laws

end Sys2Proof.Machine
end

section
/-! The statements about the scroll controller (R111 to R113): where VSCROLL and HSCROLL move the rows, the bytes and the
pixels of the framebuffer, and their laws. -/

namespace Sys2Proof.Machine

/-! ### The column strips and the page slices -/

/-- The column strips of the display (R45). -/
def columnStrips (p : Params) : List RowDesc := (List.range p.columns).map (columnStrip p)

/-- The page slices of the display (R46). -/
def pageSlices (p : Params) : List RowDesc := (List.range p.pages).map (pageSlice p)

theorem forall_columnStrips {p : Params} {P : RowDesc → Prop} :
    (∀ d ∈ columnStrips p, P d) ↔ ∀ c < p.columns, P (columnStrip p c) := by simp [columnStrips]

theorem forall_pageSlices {p : Params} {P : RowDesc → Prop} :
    (∀ d ∈ pageSlices p, P d) ↔ ∀ g < p.pages, P (pageSlice p g) := by simp [pageSlices]

/-- Every index of the map has a page and a column (R41). -/
theorem exists_grid {p : Params} {a : Nat} (ha : a < p.size) :
    ∃ g < p.pages, ∃ c < p.columns, a = g * p.columns + c := by
  have hcolumns : 0 < p.columns := Nat.pos_of_mul_pos_left (Nat.zero_lt_of_lt ha)
  exact ⟨a / p.columns, Nat.div_lt_of_lt_mul (by rwa [Nat.mul_comm]), a % p.columns, Nat.mod_lt a hcolumns,
    (Nat.div_add_mod' a p.columns).symm⟩

theorem columnStrips_tile (p : Params) : Tiles p.size p.pages (columnStrips p) where
  len := forall_columnStrips.mpr fun _ _ => rfl
  inside := forall_columnStrips.mpr fun c hc k hk => columnStrip_index p c k ▸ grid_lt_size hk hc
  cover a ha := by
    obtain ⟨g, hg, c, hc, rfl⟩ := exists_grid ha
    exact ⟨_, List.mem_map_of_mem (List.mem_range.mpr hc), g, hg, columnStrip_index p c g⟩

theorem pageSlices_tile (p : Params) : Tiles p.size p.columns (pageSlices p) where
  len := forall_pageSlices.mpr fun _ _ => rfl
  inside := forall_pageSlices.mpr fun g hg k hk => pageSlice_index p g k ▸ grid_lt_size hg hk
  cover a ha := by
    obtain ⟨g, hg, c, hc, rfl⟩ := exists_grid ha
    exact ⟨_, List.mem_map_of_mem (List.mem_range.mpr hg), c, hc, pageSlice_index p g c⟩

/-- A pixel is the ring bit of its column strip at its y coordinate (R42, R45). -/
theorem ringBit_columnStrip {p : Params} (m : Memory) {x y : Nat} (hy : y < p.height) :
    ringBit (readRow (columnStrip p x) m) y = Memory.pixel p m x y := by
  have hpage : y / 8 < (columnStrip p x).len := Nat.div_lt_of_lt_mul hy
  rw [ringBit, getD_readRow _ _ _ hpage, columnStrip_index]
  rfl

/-- A byte of a page slice, counted modulo COLUMNS (R46). -/
theorem byteAt_pageSlice (p : Params) (m : Memory) (g : Nat) (hcolumns : 0 < p.columns) (i : Int) :
    byteAt (readRow (pageSlice p g) m) i = Memory.read m (g * p.columns + (i % (p.columns : Int)).toNat) := by
  have hnonneg := Int.emod_nonneg i (show (p.columns : Int) ≠ 0 by omega)
  have hlt := Int.emod_lt_of_pos i (show (0 : Int) < p.columns by omega)
  have hplace : (i % (p.columns : Int)).toNat < (pageSlice p g).len := show _ < p.columns by omega
  rw [byteAt, length_readRow, ← pageSlice_index, ← getD_readRow _ m _ hplace 0]
  rfl

/-! ### VSCROLL on the framebuffer -/

theorem readRow_vscrollFb {p : Params} {c : Nat} (hc : c < p.columns) (n : Int) (m : Memory) :
    readRow (columnStrip p c) (vscrollFb p n m) = ringRot (readRow (columnStrip p c) m) n :=
  readRow_foldl_updateRow (fun strip => ringRot strip n) (columnStrip p) (length_ringRot · n) _ m List.nodup_range
    (fun _ _ _ => Nat.zero_lt_of_lt hc)
    (fun _ hi _ hj hne k l _ _ => columnStrips_disjoint (List.mem_range.mp hi) (List.mem_range.mp hj) hne k l)
    (List.mem_range.mpr hc)

theorem vscrollFb_moves (p : Params) (n : Int) (m : Memory) :
    RowsMove p.size (columnStrips p) n m (vscrollFb p n m) where
  ring := forall_columnStrips.mpr fun c hc => by
    rw [readRow_vscrollFb hc]
    exact ringRot_moves _ n
  outside a ha := read_foldl_updateRow_outside _ (columnStrip p) (length_ringRot · n) _ m a fun c hc k hk heq =>
    ha (heq ▸ columnStrip_index p c k ▸ grid_lt_size hk (List.mem_range.mp hc))

theorem exec_vscroll (n : Int) (s : State) :
    exec (.vscroll n) s = .next (s.done (vscrollFb s.params n s.fb) s.result) := exec_of_effect rfl

theorem fb_of_vscroll {s t : State} {n : Int} (h : exec (.vscroll n) s = .next t) :
    t.fb = vscrollFb s.params n s.fb := by
  rw [exec_vscroll, Host.Outcome.next.injEq] at h
  exact h ▸ rfl

theorem vscroll_scrolls (p : Params) : Scrolls p .vscroll (columnStrips p) p.pages 1 (8 * (p.pages : Int)) where
  tiles := columnStrips_tile p
  moves s t n hp h := by
    rw [fb_of_vscroll h, hp, one_mul]
    exact vscrollFb_moves p n s.fb
  turns n := by rw [one_mul]

/-! ### HSCROLL on the framebuffer -/

/-- How many columns up one count takes a byte (R112). -/
def hscrollUnit : HscrollSense → Int
  | .frontToBack => -1
  | .backToFront => 1

/-- Either sense is a whole-byte move, toward higher column or toward lower. -/
theorem hscrollSlice_eq (sense : HscrollSense) (k : Int) (r : List Byte) :
    hscrollSlice sense k r = moveBytes r (hscrollUnit sense * k) := by
  cases sense with
  | frontToBack => rw [hscrollUnit, neg_one_mul]; rfl
  | backToFront => rw [hscrollUnit, one_mul]; rfl

theorem readRow_hscrollFb {p : Params} {g : Nat} (hg : g < p.pages) (n : Int) (m : Memory) :
    readRow (pageSlice p g) (hscrollFb p n m)
      = moveBytes (readRow (pageSlice p g) m) (hscrollUnit p.hscrollSense * n) := by
  have hslice := readRow_foldl_updateRow (hscrollSlice p.hscrollSense (n % (p.columns : Int))) (pageSlice p)
    (length_hscrollSlice _ _) _ m List.nodup_range (fun _ _ _ => le_rfl)
    (fun _ _ _ _ hne _ _ hk hl => pageSlices_disjoint hne hk hl) (List.mem_range.mpr hg)
  rw [hscrollFb, hslice, hscrollSlice_eq]
  refine moveBytes_congr ?_
  rw [length_readRow]
  exact (Int.mod_modEq n _).mul_left _

theorem hscrollFb_moves (p : Params) (n : Int) (m : Memory) :
    RowsMove p.size (pageSlices p) (8 * (hscrollUnit p.hscrollSense * n)) m (hscrollFb p n m) where
  ring := forall_pageSlices.mpr fun g hg => by
    rw [readRow_hscrollFb hg]
    exact moveBytes_moves _ _
  outside a ha := read_foldl_updateRow_outside _ (pageSlice p) (length_hscrollSlice _ _) _ m a fun g hg k hk heq =>
    ha (heq ▸ pageSlice_index p g k ▸ grid_lt_size (List.mem_range.mp hg) hk)

/-- A byte of the framebuffer after HSCROLL, at any column counted modulo COLUMNS. -/
theorem read_hscrollFb {p : Params} {g : Nat} (hg : g < p.pages) (hcolumns : 0 < p.columns) (n : Int) (m : Memory)
    (i : Int) :
    Memory.read (hscrollFb p n m) (g * p.columns + (i % (p.columns : Int)).toNat)
      = Memory.read m (g * p.columns + ((i - hscrollUnit p.hscrollSense * n) % (p.columns : Int)).toNat) := by
  rw [← byteAt_pageSlice p _ g hcolumns, readRow_hscrollFb hg, byteAt_moveBytes, byteAt_pageSlice p m g hcolumns]

theorem natCast_emod_columns {p : Params} {c : Nat} (hc : c < p.columns) :
    ((c : Int) % (p.columns : Int)).toNat = c := by
  rw [Int.emod_eq_of_lt (by omega) (by omega), Int.toNat_natCast]

/-- The byte that HSCROLL puts at a column. -/
theorem read_hscrollFb_column {p : Params} {g c : Nat} (hg : g < p.pages) (hc : c < p.columns) (n : Int) (m : Memory) :
    Memory.read (hscrollFb p n m) (g * p.columns + c)
      = Memory.read m (g * p.columns + ((c - hscrollUnit p.hscrollSense * n) % (p.columns : Int)).toNat) := by
  have hread := read_hscrollFb hg (Nat.zero_lt_of_lt hc) n m c
  rwa [natCast_emod_columns hc] at hread

/-- The column to which HSCROLL takes a pixel. -/
theorem pixel_hscrollFb {p : Params} {x y : Nat} (hx : x < p.width) (hy : y < p.height) (n : Int) (m : Memory) :
    Memory.pixel p (hscrollFb p n m) ((x + hscrollUnit p.hscrollSense * n) % (p.width : Int)).toNat y
      = Memory.pixel p m x y := by
  rw [Memory.pixel, Memory.pixel, pixelIndex,
    read_hscrollFb (Nat.div_lt_of_lt_mul hy) (Nat.zero_lt_of_lt hx), add_sub_cancel_right, natCast_emod_columns hx]

/-- HSCROLL takes whole column strips to other columns: the same bytes in every page. -/
theorem readRow_columnStrip_hscrollFb {p : Params} {c : Nat} (hc : c < p.columns) (n : Int) (m : Memory) :
    readRow (columnStrip p c) (hscrollFb p n m)
      = readRow (columnStrip p ((c - hscrollUnit p.hscrollSense * n) % (p.columns : Int)).toNat) m := by
  refine List.map_congr_left fun k hk => ?_
  rw [columnStrip_index, columnStrip_index, read_hscrollFb_column (List.mem_range.mp hk) hc]

theorem exec_hscroll (n : Int) (s : State) :
    exec (.hscroll n) s = .next (s.done (hscrollFb s.params n s.fb) s.result) := exec_of_effect rfl

theorem fb_of_hscroll {s t : State} {n : Int} (h : exec (.hscroll n) s = .next t) :
    t.fb = hscrollFb s.params n s.fb := by
  rw [exec_hscroll, Host.Outcome.next.injEq] at h
  exact h ▸ rfl

theorem hscroll_scrolls (p : Params) :
    Scrolls p .hscroll (pageSlices p) p.columns (8 * hscrollUnit p.hscrollSense) p.columns where
  tiles := pageSlices_tile p
  moves s t n hp h := by
    rw [fb_of_hscroll h, hp, mul_assoc]
    exact hscrollFb_moves p n s.fb
  turns n := by
    rw [mul_assoc, Int.mul_dvd_mul_iff_left (by decide)]
    cases p.hscrollSense with
    | frontToBack => rw [hscrollUnit, neg_one_mul, dvd_neg]
    | backToFront => rw [hscrollUnit, one_mul]

/-! ### The two commands -/

/-- The words of format S with a count that fits, for one opcode. -/
theorem decode_count_iff {build : Int → Instr} {op : BitVec 8} {w : CommandWord} {n : Int}
    (hfits : (build n).wellFormed = decide (StepCountFits n))
    (hword : encode (build n) = packWord op (BitVec.ofInt 16 n) 0 0 0) :
    decode w = .ok (build n) ↔ ∃ a : BitVec 16, w = packWord op a 0 0 0 ∧ n = a.toInt := by
  rw [decode_ok_iff, hfits, hword, decide_eq_true_iff]
  simp only [toInt_eq_twosComplement]
  exact stepCountFits_and_iff n fun a => w = packWord op a 0 0 0

/-- Settles O40: a pixel is a ring bit of its column strip, and VSCROLL moves the ring of every strip. -/
theorem vscrollMovesPixelsVertically : Obligations.VscrollMovesPixelsVertically := by
  unfold Obligations.VscrollMovesPixelsVertically
  refine ⟨fun w n => decode_count_iff rfl rfl, fun s n => ?_⟩
  have hmoves := vscrollFb_moves s.params n s.fb
  refine ⟨_, exec_vscroll n s, fun c hc => readRow_vscrollFb hc n s.fb, hmoves.outside, fun x y hx hy => ?_,
    (vscroll_scrolls s.params).keeps_of_turn rfl (exec_vscroll n s), rfl, rfl, rfl, rfl, rfl, rfl⟩
  have hring := (forall_columnStrips.mp hmoves.ring x hx).ringBit_eq (j := y) (by rwa [length_readRow])
  have hlen : 8 * ((readRow (columnStrip s.params x) s.fb).length : Int) = (s.params.height : Int) := by
    rw [length_readRow]; rfl
  have hheight : (0 : Int) < s.params.height := by omega
  have hnonneg := Int.emod_nonneg (y + n) hheight.ne'
  have hlt := Int.emod_lt_of_pos (y + n) hheight
  rwa [hlen, ringBit_columnStrip _ hy, ringBit_columnStrip _ (by omega)] at hring

/-- Settles O41: HSCROLL moves the bytes of every page slice, and with them their pixels, by the count in its sense. -/
theorem hscrollMovesColumns : Obligations.HscrollMovesColumns := by
  unfold Obligations.HscrollMovesColumns
  refine ⟨fun w n => decode_count_iff rfl rfl, fun s n => ⟨_, exec_hscroll n s, fun g c hg hc => ?_,
    (hscrollFb_moves s.params n s.fb).outside, fun x y hx hy => ?_,
    (hscroll_scrolls s.params).keeps_of_turn rfl (exec_hscroll n s), rfl, rfl, rfl, rfl, rfl, rfl⟩⟩
  · rw [State.done_fb, read_hscrollFb_column hg hc]
    cases s.params.hscrollSense with
    | frontToBack => simp only [hscrollUnit, neg_one_mul, sub_neg_eq_add, Int.add_emod_emod]
    | backToFront => simp only [hscrollUnit, one_mul, Int.sub_emod_emod]
  · have hpixel := pixel_hscrollFb hx hy n s.fb
    rw [State.done_fb, State.done_params, ← hpixel]
    cases s.params.hscrollSense with
    | frontToBack => rw [hscrollUnit, neg_one_mul, ← sub_eq_add_neg]
    | backToFront => rw [hscrollUnit, one_mul]

/-! ### The laws -/

/-- Settles O42: VSCROLL's moves add up, and 8 * PAGES counts are a whole turn of every strip. -/
theorem vscrollsCompose : Obligations.VscrollsCompose := by
  unfold Obligations.VscrollsCompose
  refine ⟨fun p a b ⟨hpages, _, hcolumns, _⟩ => ?_, fun s t u v a b m hm ha hb hv =>
    (vscroll_scrolls s.params).compose rfl hm ha hb hv⟩
  exact (vscroll_scrolls p).restore_iff (List.mem_map_of_mem (List.mem_range.mpr hcolumns)) rfl hcolumns hpages a b

/-- Settles O43: HSCROLL's moves add up, and COLUMNS counts are a whole turn of every slice. -/
theorem hscrollsCompose : Obligations.HscrollsCompose := by
  unfold Obligations.HscrollsCompose
  refine ⟨fun p a b ⟨hpages, _, hcolumns, _⟩ => ?_, fun s t u v a b m hm ha hb hv =>
    (hscroll_scrolls s.params).compose rfl hm ha hb hv⟩
  exact (hscroll_scrolls p).restore_iff (List.mem_map_of_mem (List.mem_range.mpr hpages)) (Nat.zero_mul _) le_rfl
    hcolumns a b

/-- VSCROLL does the same to every strip, and HSCROLL takes strips to strips (R113 law 3). -/
theorem read_scrollFb_comm (p : Params) (a b : Int) (m : Memory) (i : Nat) :
    Memory.read (hscrollFb p b (vscrollFb p a m)) i = Memory.read (vscrollFb p a (hscrollFb p b m)) i := by
  refine (columnStrips_tile p).read_eq (forall_columnStrips.mpr fun c hc => ?_) (fun i hi => ?_) i
  · have hcolumns : (0 : Int) < p.columns := by omega
    have hnonneg := Int.emod_nonneg (c - hscrollUnit p.hscrollSense * b) hcolumns.ne'
    have hlt := Int.emod_lt_of_pos (c - hscrollUnit p.hscrollSense * b) hcolumns
    rw [readRow_columnStrip_hscrollFb hc, readRow_vscrollFb (by omega), readRow_vscrollFb hc,
      readRow_columnStrip_hscrollFb hc]
  · rw [(hscrollFb_moves p b _).outside i hi, (vscrollFb_moves p a _).outside i hi,
      (vscrollFb_moves p a _).outside i hi, (hscrollFb_moves p b _).outside i hi]

/-- Settles O44: the two FBs read the same and both are canonical. -/
theorem scrollsCommute : Obligations.ScrollsCommute := by
  unfold Obligations.ScrollsCommute
  intro s t u t' u' a b hinv ht hu ht' hu'
  rw [exec_vscroll, Host.Outcome.next.injEq] at ht hu'
  rw [exec_hscroll, Host.Outcome.next.injEq] at hu ht'
  subst ht hu ht' hu'
  have hfb : hscrollFb s.params b (vscrollFb s.params a s.fb) = vscrollFb s.params a (hscrollFb s.params b s.fb) :=
    Memory.wf_ext (hscrollFb_inv (vscrollFb_inv hinv a) b).1 (vscrollFb_inv (hscrollFb_inv hinv b) a).1
      (read_scrollFb_comm s.params a b s.fb)
  exact congrArg (fun m => (s.done m s.result).done m s.result) hfb

/-- Settles O45: VSCROLL moves the ring of every strip, HSCROLL permutes the bytes of every slice. -/
theorem scrollsConservePixels : Obligations.ScrollsConservePixels := by
  unfold Obligations.ScrollsConservePixels
  refine ⟨fun s t n h c hc => ?_, fun s t n h g hg => ?_⟩
  · rw [fb_of_vscroll h]
    exact (forall_columnStrips.mp (vscrollFb_moves s.params n s.fb).ring c hc).bitCount_eq
  · rw [fb_of_hscroll h, readRow_hscrollFb hg]
    exact moveBytes_perm _ _

/-- Settles O46: on a constant picture every move of the rows is the identity. -/
theorem scrollsKeepConstantPictures : Obligations.ScrollsKeepConstantPictures := by
  unfold Obligations.ScrollsKeepConstantPictures
  rintro s t n v hv hs (h | h)
  · exact (vscroll_scrolls s.params).keeps_constant rfl h hv hs
  · exact (hscroll_scrolls s.params).keeps_constant rfl h hv hs

end Sys2Proof.Machine
end

section
/-! The host's loop (R120), action by action: an action goes on with the rest of the expansion or stops it, and an
expansion in two parts goes on with the second where the first succeeds. -/

namespace Sys2Proof.Machine

/-- Where `andThen` gets to a next state, both of its parts did. -/
theorem andThen_eq_next {σ τ : Type} {o : Host.Outcome σ Fault Refusal} {f : σ → Host.Outcome τ Fault Refusal}
    {b : τ} : andThen o f = .next b ↔ ∃ a, o = .next a ∧ f a = .next b := by
  cases o <;> simp [andThen]

theorem andThen_assoc {σ τ υ : Type} (o : Host.Outcome σ Fault Refusal) (f : σ → Host.Outcome τ Fault Refusal)
    (g : τ → Host.Outcome υ Fault Refusal) : andThen (andThen o f) g = andThen o fun a => andThen (f a) g := by
  cases o <;> rfl

/-! ### The host's Reads -/

/-- The state after the host reads register `sel` (R26): one more reply. -/
def State.afterRead (s : State) (sel : BitVec 2) : State := s.withReplies (s.replies ++ [readRegister sel s])

@[simp] theorem State.afterRead_params (s : State) (sel : BitVec 2) : (s.afterRead sel).params = s.params := rfl
@[simp] theorem State.afterRead_fb (s : State) (sel : BitVec 2) : (s.afterRead sel).fb = s.fb := rfl
@[simp] theorem State.afterRead_result (s : State) (sel : BitVec 2) : (s.afterRead sel).result = s.result := rfl
@[simp] theorem State.afterRead_status (s : State) (sel : BitVec 2) : (s.afterRead sel).status = s.status := rfl

theorem transact_read (sel : BitVec 2) (s : State) : transact (.read sel) s = .next (s.afterRead sel) := rfl

theorem lastReply_afterRead (s : State) (sel : BitVec 2) : lastReply (s.afterRead sel) = readRegister sel s := by
  simp [lastReply, State.afterRead]

/-- The state and the bytes of the host after a successful command (R125). -/
def taken (i : Instr) (s : State) : State × List Byte :=
  match i with
  | .readb _ => (s.afterRead 0, [s.result.extractLsb' 0 8])
  | _ => (s, [])

theorem takeByte_eq (i : Instr) (s : State) : takeByte i s = .next (taken i s) := by
  cases i with
  | readb j =>
    simp only [takeByte, transact_read, andThen, lastReply_afterRead, readRegister_result]
    rfl
  | _ => rfl

@[simp] theorem taken_fb (i : Instr) (s : State) : (taken i s).1.fb = s.fb := by cases i <;> rfl
@[simp] theorem taken_result (i : Instr) (s : State) : (taken i s).1.result = s.result := by cases i <;> rfl
@[simp] theorem taken_status (i : Instr) (s : State) : (taken i s).1.status = s.status := by cases i <;> rfl

/-! ### One action -/

/-- What the host holds after an expansion whose first commands returned `bytes`. -/
def HostResult.prepend (bytes : List Byte) (r : HostResult) : HostResult := { r with bytes := bytes ++ r.bytes }

@[simp] theorem HostResult.prepend_state (bytes : List Byte) (r : HostResult) : (r.prepend bytes).state = r.state := rfl
@[simp] theorem HostResult.prepend_error (bytes : List Byte) (r : HostResult) : (r.prepend bytes).error = r.error := rfl
@[simp] theorem HostResult.prepend_bytes (bytes : List Byte) (r : HostResult) :
    (r.prepend bytes).bytes = bytes ++ r.bytes := rfl

/-- A command of an expansion: the host asks for LAST_ERR, and goes on exactly where it is 0 (R120). -/
theorem runActions_command {i : Instr} {s t : State} (h : transact (.issue (encode i)) s = .next t)
    (rest : List HostAction) :
    runActions (.command i :: rest) s
      = if t.status.lastErr = 0 then
          andThen (runActions rest (taken i (t.afterRead 1)).1) fun r =>
            .next (r.prepend (taken i (t.afterRead 1)).2)
        else .next { state := t.afterRead 1, error := some (.engine t.status.lastErr), bytes := [] } := by
  simp only [runActions, h, andThen, transact_read, lastReply_afterRead, readRegister_status, Status.word_lastErr,
    takeByte_eq]
  rfl

/-- The action `a` stopped the host that held `r0`, and left it with `r` (R120): FB and RESULT stay, and either the
action did not fit its field, or its command left the error in LAST_ERR. -/
def StopsWith (a : HostAction) (r0 r : HostResult) : Prop :=
  r.state.fb = r0.state.fb ∧ r.state.result = r0.state.result ∧ r.bytes = r0.bytes ∧
    ((a = .unfit ∧ r.error = some (.engine ErrCode.range.code) ∧ r.state = r0.state) ∨
      (∃ i, a = .command i ∧ r.state.status.lastErr ≠ 0 ∧ r.error = some (.engine r.state.status.lastErr)))

theorem StopsWith.error_ne_none {a : HostAction} {r0 r : HostResult} (h : StopsWith a r0 r) : r.error ≠ none := by
  obtain ⟨-, -, -, ⟨-, herr, -⟩ | ⟨i, -, -, herr⟩⟩ := h
  · rw [herr]; exact Option.some_ne_none _
  · rw [herr]; exact Option.some_ne_none _

theorem StopsWith.prepend {a : HostAction} {r0 r : HostResult} (h : StopsWith a r0 r) (bytes : List Byte) :
    StopsWith a (r0.prepend bytes) (r.prepend bytes) := by
  obtain ⟨hfb, hresult, hbytes, hcause⟩ := h
  exact ⟨hfb, hresult, congrArg (bytes ++ ·) hbytes, hcause⟩

/-- What an action does to the expansion it begins: it stops it, or the host goes on with the rest. -/
theorem runActions_cons_cases (a : HostAction) (s : State) :
    (∃ r, StopsWith a { state := s, error := none, bytes := [] } r ∧ ∀ rest, runActions (a :: rest) s = .next r) ∨
      ∃ t bytes, ∀ rest, runActions (a :: rest) s = andThen (runActions rest t) fun r => .next (r.prepend bytes) := by
  cases a with
  | unfit =>
    exact .inl ⟨{ state := s, error := some (.engine ErrCode.range.code), bytes := [] },
      ⟨rfl, rfl, rfl, .inl ⟨rfl, rfl, rfl⟩⟩, fun _ => rfl⟩
  | command i =>
    obtain ⟨t, ht⟩ := transact_completes (.issue (encode i)) s
    by_cases h0 : t.status.lastErr = 0
    · exact .inr ⟨_, _, fun rest => (runActions_command ht rest).trans (if_pos h0)⟩
    · refine .inl ⟨{ state := t.afterRead 1, error := some (.engine t.status.lastErr), bytes := [] }, ?_,
        fun rest => (runActions_command ht rest).trans (if_neg h0)⟩
      rw [transact_issue_eq_finish] at ht
      obtain ⟨e, -, rfl⟩ := State.finish_failed ht h0
      exact ⟨rfl, rfl, rfl, .inr ⟨i, rfl, h0, rfl⟩⟩

/-! ### Commands whose outcome is known -/

theorem transact_encode {i : Instr} (hi : i.wellFormed = true) (s : State) :
    transact (.issue (encode i)) s = exec i s := by
  simp only [transact, issue, decode_encode hi]

/-- The host stops with the error `e`, and FB and the parameters are as in `s`. -/
def HostStops (e : ErrCode) (s : State) (o : Host.Outcome HostResult Fault Refusal) : Prop :=
  ∃ r, o = .next r ∧ r.error = some (.engine e.code) ∧ r.state.fb = s.fb ∧ r.state.params = s.params

theorem runActions_of_failedWith {i : Instr} (hi : i.wellFormed = true) {s : State} {e : ErrCode}
    (h : ∃ t, exec i s = .next t ∧ FailedWith e s t) (rest : List HostAction) :
    HostStops e s (runActions (.command i :: rest) s) := by
  obtain ⟨t, ht, herr, -, hfb, -, hparams, -, -⟩ := h
  rw [← transact_encode hi] at ht
  rw [runActions_command ht, if_neg (herr ▸ e.code_ne_zero)]
  exact ⟨_, rfl, congrArg (fun code => some (HostError.engine code)) herr, hfb, hparams⟩

theorem runActions_of_succeeded {i : Instr} (hi : i.wellFormed = true) {s t : State} (ht : exec i s = .next t)
    (h0 : t.status.lastErr = 0) (rest : List HostAction) :
    runActions (.command i :: rest) s
      = andThen (runActions rest (taken i (t.afterRead 1)).1) fun r =>
          .next (r.prepend (taken i (t.afterRead 1)).2) := by
  rw [← transact_encode hi] at ht
  rw [runActions_command ht, if_pos h0]

/-- An operand that fits its 16-bit field is read back from it (R62). -/
theorem toNat_ofNat_field {n : Nat} (h : n < 2 ^ 16) : (BitVec.ofNat 16 n).toNat = n := Nat.mod_eq_of_lt h

/-- Every index of a legal FB fits a 16-bit field (R5). -/
theorem size_le_of_legal {p : Params} (h : p.legal) : p.size ≤ 2 ^ 16 := by
  obtain ⟨-, hpages, -, hcolumns⟩ := h
  exact (Nat.mul_le_mul hpages hcolumns : p.size ≤ 256 * 256)

/-! ### Expansions -/

/-- The second part of an expansion is issued where the first succeeded. -/
theorem runActions_append {pre : List HostAction} {s : State} {r0 : HostResult} (h : runActions pre s = .next r0)
    (h0 : r0.error = none) (post : List HostAction) :
    runActions (pre ++ post) s = andThen (runActions post r0.state) fun r => .next (r.prepend r0.bytes) := by
  induction pre generalizing s r0 with
  | nil =>
    cases h
    cases hpost : runActions post s <;> simp [andThen, hpost, HostResult.prepend]
  | cons a pre ih =>
    rcases runActions_cons_cases a s with ⟨r, hstop, hrun⟩ | ⟨t, bytes, hrun⟩
    · rw [hrun] at h
      cases h
      exact absurd h0 hstop.error_ne_none
    · rw [hrun] at h
      obtain ⟨r1, h1, hr0⟩ := andThen_eq_next.mp h
      cases hr0
      rw [List.cons_append, hrun, ih h1 h0, andThen_assoc]
      simp only [andThen, HostResult.prepend, List.append_assoc]

/-- An expansion that fails succeeds up to the action that stops it. -/
theorem runActions_stops {actions : List HostAction} {s : State} {r : HostResult} (h : runActions actions s = .next r)
    (herr : r.error ≠ none) :
    ∃ pre a post r0, actions = pre ++ a :: post ∧ runActions pre s = .next r0 ∧ r0.error = none ∧ StopsWith a r0 r := by
  induction actions generalizing s r with
  | nil => cases h; exact absurd rfl herr
  | cons a rest ih =>
    rcases runActions_cons_cases a s with ⟨r', hstop, hrun⟩ | ⟨t, bytes, hrun⟩
    · rw [hrun] at h
      cases h
      exact ⟨[], a, rest, _, rfl, rfl, rfl, hstop⟩
    · rw [hrun] at h
      obtain ⟨r1, h1, hr⟩ := andThen_eq_next.mp h
      cases hr
      obtain ⟨pre, b, post, r0, hactions, hpre, hr0, hstop⟩ := ih h1 herr
      refine ⟨a :: pre, b, post, r0.prepend bytes, congrArg (a :: ·) hactions, ?_, hr0, hstop.prepend bytes⟩
      rw [hrun, hpre]
      rfl

/-- The host's view of one command: the state of its Issue and the error that its LAST_ERR names. -/
theorem runActions_singleton {i : Instr} {s t : State} (h : transact (.issue (encode i)) s = .next t) :
    ∃ r, runActions [.command i] s = .next r ∧
      r.state.fb = t.fb ∧ r.state.result = t.result ∧ r.state.status = t.status ∧
      (t.status.lastErr = 0 → r.error = none) ∧
      (t.status.lastErr ≠ 0 → r.error = some (.engine t.status.lastErr)) := by
  rw [runActions_command h]
  split
  · next h0 => exact ⟨_, rfl, taken_fb _ _, taken_result _ _, taken_status _ _, fun _ => rfl, absurd h0⟩
  · next h0 => exact ⟨_, rfl, rfl, rfl, rfl, fun h => absurd h h0, fun _ => rfl⟩

/-- Settles O53: one command by its LAST_ERR, the rest by what the first action of an expansion does to it. -/
theorem hostStopsAtTheFirstError : Obligations.HostStopsAtTheFirstError := by
  unfold Obligations.HostStopsAtTheFirstError
  refine ⟨fun i s _ => ?_, fun pen x y hout => if_neg (by omega), fun actions s r => runActions_stops,
    fun pre post s r0 h h0 => runActions_append h h0 post⟩
  obtain ⟨t, ht⟩ := transact_completes (.issue (encode i)) s
  obtain ⟨r, hr⟩ := runActions_singleton ht
  exact ⟨t, r, ht, hr⟩

end Sys2Proof.Machine
end

section
/-! Lists of pixels (R121 to R124): an expansion of SETPX actions draws all its pixels where they are in the display,
and in STRICT mode those up to the first that is not. -/

namespace Sys2Proof.Machine

/-! ### Pixels of the display -/

/-- A pixel of the display (R42). -/
def InDisplay (p : Params) (q : Nat × Nat) : Prop := q.1 < p.width ∧ q.2 < p.height

/-- From `s` to `t` exactly the pixels of the list are drawn, each with its own pen. -/
def Drawn (pen : Nat → Nat → Bool) (pixels : List (Nat × Nat)) (s t : State) : Prop :=
  t.params = s.params ∧
  ∀ x y, x < s.params.width → y < s.params.height →
    Memory.pixel s.params t.fb x y = if (x, y) ∈ pixels then pen x y else Memory.pixel s.params s.fb x y

/-- A pixel after the drawing, with the list told by what its pixels have in common. -/
theorem Drawn.pixel_eq {pen : Nat → Nat → Bool} {pixels : List (Nat × Nat)} {s t : State} (h : Drawn pen pixels s t)
    {x y : Nat} (hx : x < s.params.width) (hy : y < s.params.height) {P : Prop} [Decidable P]
    (hP : (x, y) ∈ pixels ↔ P) :
    Memory.pixel s.params t.fb x y = if P then pen x y else Memory.pixel s.params s.fb x y :=
  (h.2 x y hx hy).trans (if_congr hP rfl rfl)

theorem Drawn.of_fb {pen : Nat → Nat → Bool} {pixels : List (Nat × Nat)} {s t u : State} (h : Drawn pen pixels s t)
    (hfb : u.fb = t.fb) (hparams : u.params = t.params) : Drawn pen pixels s u := by
  rwa [Drawn, hfb, hparams]

theorem Drawn.nil (pen : Nat → Nat → Bool) (s : State) : Drawn pen [] s s := ⟨rfl, fun x y _ _ => by simp⟩

theorem Drawn.cons {pen : Nat → Nat → Bool} {q : Nat × Nat} {pixels : List (Nat × Nat)} {s t u : State}
    (h : Drawn pen [q] s t) (h' : Drawn pen pixels t u) : Drawn pen (q :: pixels) s u := by
  obtain ⟨hparams, hpixel⟩ := h
  obtain ⟨hparams', hpixel'⟩ := h'
  rw [hparams] at hpixel' hparams'
  refine ⟨hparams', fun x y hx hy => ?_⟩
  rw [hpixel' x y hx hy, hpixel x y hx hy]
  by_cases hmem : (x, y) ∈ pixels
  · simp [hmem]
  · simp [hmem]

/-! ### SETPX -/

/-- The coordinates of the display fit their fields (R5). -/
theorem setpxAction_inDisplay {p : Params} (hlegal : p.legal) {q : Nat × Nat} (hq : InDisplay p q) (pen : Bool) :
    ∃ x y : BitVec 16, x.toNat = q.1 ∧ y.toNat = q.2 ∧ setpxAction pen q.1 q.2 = .command (.setpx x y pen) := by
  obtain ⟨-, hpages, -, hcolumns⟩ := hlegal
  obtain ⟨hx, hy⟩ := hq
  simp only [Params.width, Params.height] at hx hy
  have hx16 : q.1 < 2 ^ 16 := by omega
  have hy16 : q.2 < 2 ^ 16 := by omega
  exact ⟨_, _, toNat_ofNat_field hx16, toNat_ofNat_field hy16, if_pos ⟨hx16, hy16⟩⟩

/-- A pixel of the display is drawn, and the host goes on. -/
theorem runActions_setpx_inDisplay {s : State} (hlegal : s.params.legal) {q : Nat × Nat} (hq : InDisplay s.params q)
    (pen : Nat → Nat → Bool) :
    ∃ t, Drawn pen [q] s t ∧ ∀ rest, runActions (setpxAction (pen q.1 q.2) q.1 q.2 :: rest) s
      = andThen (runActions rest t) fun r => .next (r.prepend []) := by
  obtain ⟨x, y, hx, hy, haction⟩ := setpxAction_inDisplay hlegal hq (pen q.1 q.2)
  obtain ⟨hqx, hqy⟩ := hq
  obtain ⟨t, ht, ⟨h0, -, hparams, -, -⟩, hpixel⟩ :=
    setpxChangesOnePixel s x y (pen q.1 q.2) (hx ▸ hqx) (hy ▸ hqy)
  refine ⟨t.afterRead 1, ⟨hparams, fun x' y' hx' hy' => ?_⟩, fun rest => ?_⟩
  · have hthis := hpixel x' y' hx' hy'
    rw [hparams, hx, hy] at hthis
    rw [State.afterRead_fb, hthis]
    by_cases hxy : x' = q.1 ∧ y' = q.2
    · obtain ⟨rfl, rfl⟩ := hxy
      simp
    · have hne : (x', y') ∉ [q] := fun h => hxy (Prod.ext_iff.mp (List.mem_singleton.mp h))
      rw [if_neg hxy, if_neg hne]
  · rw [haction, runActions_of_succeeded rfl ht h0]
    rfl

/-- In STRICT mode a pixel outside the display stops the host with E_RANGE, whether or not it fits its fields. -/
theorem runActions_setpx_outside {s : State} (hmode : s.params.boundaryMode = .strict) {x y : Nat}
    (h : x ≥ s.params.width ∨ y ≥ s.params.height) (pen : Bool) (rest : List HostAction) :
    HostStops .range s (runActions (setpxAction pen x y :: rest) s) := by
  unfold setpxAction
  split
  · next hfits =>
    obtain ⟨hx, hy⟩ := hfits
    refine runActions_of_failedWith rfl (exec_failedWith (effect_setpx_of_error ?_ _ _ pen)) rest
    rw [toNat_ofNat_field hx, toNat_ofNat_field hy]
    exact translatePixel_strict_outside hmode h
  · exact ⟨_, rfl, rfl, rfl, rfl⟩

/-! ### Lists of pixels -/

/-- The SETPX actions of a list of pixels. -/
def drawActions (pen : Nat → Nat → Bool) (pixels : List (Nat × Nat)) : List HostAction :=
  pixels.map fun q => setpxAction (pen q.1 q.2) q.1 q.2

/-- Pixels of the display are all drawn. -/
theorem runActions_drawActions {s : State} (hlegal : s.params.legal) (pen : Nat → Nat → Bool)
    {pixels : List (Nat × Nat)} (hin : ∀ q ∈ pixels, InDisplay s.params q) :
    ∃ r, runActions (drawActions pen pixels) s = .next r ∧ r.error = none ∧ Drawn pen pixels s r.state := by
  induction pixels generalizing s with
  | nil => exact ⟨_, rfl, rfl, Drawn.nil pen s⟩
  | cons q pixels ih =>
    obtain ⟨hq, hpixels⟩ := List.forall_mem_cons.mp hin
    obtain ⟨t, hdrawn, hrun⟩ := runActions_setpx_inDisplay hlegal hq pen
    obtain ⟨r, hr, h0, hdrawn'⟩ := ih (s := t) (hdrawn.1 ▸ hlegal) (hdrawn.1 ▸ hpixels)
    refine ⟨r.prepend [], ?_, h0, hdrawn.cons hdrawn'⟩
    rw [drawActions, List.map_cons, hrun]
    exact andThen_eq_next.mpr ⟨r, hr, rfl⟩

/-- In STRICT mode the pixels before the first one outside the display are drawn, and the host stops with E_RANGE. -/
theorem runActions_drawActions_outside {s : State} (hlegal : s.params.legal) (hmode : s.params.boundaryMode = .strict)
    (pen : Nat → Nat → Bool) {pixels : List (Nat × Nat)} (hin : ∀ q ∈ pixels, InDisplay s.params q) {q : Nat × Nat}
    (hout : ¬ InDisplay s.params q) (post : List (Nat × Nat)) :
    ∃ r, runActions (drawActions pen (pixels ++ q :: post)) s = .next r ∧
      r.error = some (.engine ErrCode.range.code) ∧ Drawn pen pixels s r.state := by
  obtain ⟨r0, hr0, h0, hdrawn⟩ := runActions_drawActions hlegal pen hin
  have hparams := hdrawn.1
  have hedge : q.1 ≥ r0.state.params.width ∨ q.2 ≥ r0.state.params.height := by
    rw [hparams]
    exact (not_and_or.mp hout).imp Nat.le_of_not_lt Nat.le_of_not_lt
  obtain ⟨r, hr, herr, hfb, hp⟩ :=
    runActions_setpx_outside (hparams ▸ hmode) hedge (pen q.1 q.2) (drawActions pen post)
  refine ⟨r.prepend r0.bytes, ?_, herr, hdrawn.of_fb hfb hp⟩
  rw [drawActions, List.map_append, List.map_cons]
  exact (runActions_append hr0 h0 _).trans (andThen_eq_next.mpr ⟨r, hr, rfl⟩)

/-! ### Lines -/

/-- The first `n` pixels of a line whose pixel `i` is `place i`. -/
def linePixels (place : Nat → Nat × Nat) (n : Nat) : List (Nat × Nat) := (List.range n).map place

theorem forall_mem_linePixels {place : Nat → Nat × Nat} {n : Nat} {P : Nat × Nat → Prop} :
    (∀ q ∈ linePixels place n, P q) ↔ ∀ i < n, P (place i) := by simp [linePixels]

/-- A line longer than `k` is its first `k` pixels, then the next one, and others. -/
theorem linePixels_eq_append_cons (place : Nat → Nat × Nat) {k n : Nat} (h : k < n) :
    ∃ post, linePixels place n = linePixels place k ++ place k :: post := by
  obtain ⟨m, rfl⟩ := Nat.exists_eq_add_of_lt h
  refine ⟨(List.range m).map fun i => place (k + 1 + i), ?_⟩
  rw [Nat.add_right_comm, linePixels, List.range_add, List.range_succ]
  simp [linePixels]

/-- In STRICT mode a line that leaves the display at its pixel `k` is drawn up to there and fails with E_RANGE. -/
theorem runActions_line_outside {s : State} (hlegal : s.params.legal) (hmode : s.params.boundaryMode = .strict)
    (pen : Nat → Nat → Bool) {place : Nat → Nat × Nat} {k n : Nat} (hk : k < n)
    (hin : ∀ i < k, InDisplay s.params (place i)) (hout : ¬ InDisplay s.params (place k)) :
    ∃ r, runActions (drawActions pen (linePixels place n)) s = .next r ∧
      r.error = some (.engine ErrCode.range.code) ∧ Drawn pen (linePixels place k) s r.state := by
  obtain ⟨post, hpost⟩ := linePixels_eq_append_cons place hk
  rw [hpost]
  exact runActions_drawActions_outside hlegal hmode pen (forall_mem_linePixels.mpr hin) hout post

theorem exists_add_iff {x n x' : Nat} : (∃ i < n, x + i = x') ↔ x ≤ x' ∧ x' < x + n := by
  constructor
  · rintro ⟨i, hi, rfl⟩; omega
  · rintro ⟨hle, hlt⟩; exact ⟨x' - x, by omega, by omega⟩

end Sys2Proof.Machine
end

section
/-! The pseudo-instructions that draw (R121 to R124): which pixels each one names, and where they lie. -/

namespace Sys2Proof.Machine

/-! ### HLINE and VLINE -/

/-- The pixels of a line to the right (R121). -/
def hlinePixels (x y length : Nat) : List (Nat × Nat) := linePixels (fun i => (x + i, y)) length

/-- The pixels of a line downward (R122). -/
def vlinePixels (x y length : Nat) : List (Nat × Nat) := linePixels (fun i => (x, y + i)) length

theorem hlineActions_eq (x y length : Nat) (pen : Bool) :
    hlineActions x y length pen = drawActions (fun _ _ => pen) (hlinePixels x y length) := by
  simp [hlineActions, drawActions, hlinePixels, linePixels]

theorem vlineActions_eq (x y length : Nat) (pen : Bool) :
    vlineActions x y length pen = drawActions (fun _ _ => pen) (vlinePixels x y length) := by
  simp [vlineActions, drawActions, vlinePixels, linePixels]

theorem mem_hlinePixels {x y n x' y' : Nat} : (x', y') ∈ hlinePixels x y n ↔ y' = y ∧ x ≤ x' ∧ x' < x + n := by
  rw [← exists_add_iff, hlinePixels, linePixels]
  simp only [List.mem_map, List.mem_range, Prod.mk.injEq]
  exact ⟨fun ⟨i, hi, hx, hy⟩ => ⟨hy.symm, i, hi, hx⟩, fun ⟨hy, i, hi, hx⟩ => ⟨i, hi, hx, hy.symm⟩⟩

theorem mem_vlinePixels {x y n x' y' : Nat} : (x', y') ∈ vlinePixels x y n ↔ x' = x ∧ y ≤ y' ∧ y' < y + n := by
  rw [← exists_add_iff, vlinePixels, linePixels]
  simp only [List.mem_map, List.mem_range, Prod.mk.injEq]
  exact ⟨fun ⟨i, hi, hx, hy⟩ => ⟨hx.symm, i, hi, hy⟩, fun ⟨hx, i, hi, hy⟩ => ⟨i, hi, hx.symm, hy⟩⟩

theorem hlinePixels_inDisplay {p : Params} {x y n : Nat} (hx : x + n ≤ p.width) (hy : y < p.height) :
    ∀ q ∈ hlinePixels x y n, InDisplay p q :=
  forall_mem_linePixels.mpr fun i hi => ⟨show x + i < p.width by omega, hy⟩

theorem vlinePixels_inDisplay {p : Params} {x y n : Nat} (hx : x < p.width) (hy : y + n ≤ p.height) :
    ∀ q ∈ vlinePixels x y n, InDisplay p q :=
  forall_mem_linePixels.mpr fun i hi => ⟨hx, show y + i < p.height by omega⟩

/-- Settles O54: the line's pixels are of the display, or its pixel `WIDTH - x` is the first that is not. -/
theorem hlineDrawsALine : Obligations.HlineDrawsALine := by
  unfold Obligations.HlineDrawsALine
  intro mono s x y length pen hlegal hy
  simp only [runPseudo, expand, hlineActions_eq]
  refine ⟨fun hfits => ?_, fun hmode hx hover => ?_⟩
  · obtain ⟨r, hr, h0, hdrawn⟩ := runActions_drawActions hlegal (fun _ _ => pen) (hlinePixels_inDisplay hfits hy)
    exact ⟨r, hr, h0, fun x' y' hx' hy' => hdrawn.pixel_eq hx' hy' mem_hlinePixels⟩
  · have hedge : x + (s.params.width - x) = s.params.width := by omega
    obtain ⟨r, hr, herr, hdrawn⟩ := runActions_line_outside hlegal hmode (fun _ _ => pen)
      (show s.params.width - x < length by omega) (forall_mem_linePixels.mp (hlinePixels_inDisplay hedge.le hy))
      (fun h => h.1.ne hedge)
    refine ⟨r, hr, herr, fun x' y' hx' hy' => hdrawn.pixel_eq hx' hy' (mem_hlinePixels.trans ?_)⟩
    omega

/-- Settles O55: the line's pixels are of the display, or its pixel `HEIGHT - y` is the first that is not. -/
theorem vlineDrawsALine : Obligations.VlineDrawsALine := by
  unfold Obligations.VlineDrawsALine
  intro mono s x y length pen hlegal hx
  simp only [runPseudo, expand, vlineActions_eq]
  refine ⟨fun hfits => ?_, fun hmode hy hover => ?_⟩
  · obtain ⟨r, hr, h0, hdrawn⟩ := runActions_drawActions hlegal (fun _ _ => pen) (vlinePixels_inDisplay hx hfits)
    exact ⟨r, hr, h0, fun x' y' hx' hy' => hdrawn.pixel_eq hx' hy' mem_vlinePixels⟩
  · have hedge : y + (s.params.height - y) = s.params.height := by omega
    obtain ⟨r, hr, herr, hdrawn⟩ := runActions_line_outside hlegal hmode (fun _ _ => pen)
      (show s.params.height - y < length by omega) (forall_mem_linePixels.mp (vlinePixels_inDisplay hx hedge.le))
      (fun h => h.2.ne hedge)
    refine ⟨r, hr, herr, fun x' y' hx' hy' => hdrawn.pixel_eq hx' hy' (mem_vlinePixels.trans ?_)⟩
    omega

/-! ### BOX -/

/-- The four edges of a box, lengths as naturals (R123). -/
def boxPixels (x1 y1 x2 y2 : Nat) : List (Nat × Nat) :=
  let l := ((x2 : Int) - x1 + 1).toNat
  let m := ((y2 : Int) - y1 + 1).toNat
  hlinePixels x1 y1 l ++ hlinePixels x1 y2 l ++ vlinePixels x1 y1 m ++ vlinePixels x2 y1 m

theorem boxActions_eq (x1 y1 x2 y2 : Nat) (pen : Bool) :
    boxActions x1 y1 x2 y2 pen = drawActions (fun _ _ => pen) (boxPixels x1 y1 x2 y2) := by
  simp only [boxActions, hlineActions_eq, vlineActions_eq, boxPixels, drawActions, List.map_append]

theorem length_boxActions (x1 y1 x2 y2 : Nat) (pen : Bool) :
    ((boxActions x1 y1 x2 y2 pen).length : Int)
      = 2 * max ((x2 : Int) - x1 + 1) 0 + 2 * max ((y2 : Int) - y1 + 1) 0 := by
  simp only [boxActions, hlineActions, vlineActions, List.length_append, List.length_map, List.length_range]
  omega

theorem mem_boxPixels {x1 y1 x2 y2 x y : Nat} (hx : x1 ≤ x2) (hy : y1 ≤ y2) :
    (x, y) ∈ boxPixels x1 y1 x2 y2
      ↔ x1 ≤ x ∧ x ≤ x2 ∧ y1 ≤ y ∧ y ≤ y2 ∧ (x = x1 ∨ x = x2 ∨ y = y1 ∨ y = y2) := by
  simp only [boxPixels, List.mem_append, mem_hlinePixels, mem_vlinePixels]
  omega

/-- Settles O56: the edges have their lengths, and together they are the outline. -/
theorem boxDrawsTheOutline : Obligations.BoxDrawsTheOutline := by
  unfold Obligations.BoxDrawsTheOutline
  refine ⟨length_boxActions, fun mono s x1 y1 x2 y2 pen hlegal hx hx2 hy hy2 => ?_⟩
  simp only [runPseudo, expand, boxActions_eq]
  have hin : ∀ q ∈ boxPixels x1 y1 x2 y2, InDisplay s.params q := fun q hq => by
    obtain ⟨-, hxq, -, hyq, -⟩ := (mem_boxPixels hx hy).mp hq
    exact ⟨hxq.trans_lt hx2, hyq.trans_lt hy2⟩
  obtain ⟨r, hr, h0, hdrawn⟩ := runActions_drawActions hlegal (fun _ _ => pen) hin
  exact ⟨r, hr, h0, fun x y hx' hy' => hdrawn.pixel_eq hx' hy' (mem_boxPixels hx hy)⟩

/-! ### DRAWIMG -/

/-- The pixels of an image at (tx, ty), row by row (R124). -/
def imagePixels (img : Image) (tx ty : Nat) : List (Nat × Nat) :=
  (List.range img.height).flatMap fun j => (List.range img.width).map fun i => (tx + i, ty + j)

/-- The pen of an image at (tx, ty): a pixel is set where its sample is black. -/
def imagePen (mono : Nat → BitVec 1) (img : Image) (tx ty x y : Nat) : Bool :=
  mono (img.sample (x - tx) (y - ty)) == 0

theorem imageActions_eq (mono : Nat → BitVec 1) (img : Image) (tx ty : Nat) :
    imageActions mono img tx ty = drawActions (imagePen mono img tx ty) (imagePixels img tx ty) := by
  simp [imageActions, drawActions, imagePen, imagePixels, List.map_flatMap, Function.comp_def]

theorem mem_imagePixels {img : Image} {tx ty x y : Nat} :
    (x, y) ∈ imagePixels img tx ty ↔ tx ≤ x ∧ x < tx + img.width ∧ ty ≤ y ∧ y < ty + img.height := by
  rw [← and_assoc, ← exists_add_iff, ← exists_add_iff, imagePixels]
  simp only [List.mem_flatMap, List.mem_map, List.mem_range, Prod.mk.injEq]
  exact ⟨fun ⟨j, hj, i, hi, hx, hy⟩ => ⟨⟨i, hi, hx⟩, j, hj, hy⟩, fun ⟨⟨i, hi, hx⟩, j, hj, hy⟩ => ⟨j, hj, i, hi, hx, hy⟩⟩

/-- An image that is not too large is drawn at its offset, centered or not (R124). -/
theorem runPseudo_drawimg (mono : Nat → BitVec 1) (s : State) (img : Image) (tx ty : Nat) (cx cy : Bool)
    (hwidth : img.width ≤ s.params.width) (hheight : img.height ≤ s.params.height) :
    runPseudo mono (.drawimg img tx ty cx cy) s
      = runActions (imageActions mono img (if cx then s.params.width / 2 - img.width / 2 else tx)
          (if cy then s.params.height / 2 - img.height / 2 else ty)) s := by
  have hsize : ¬ (img.width > s.params.width ∨ img.height > s.params.height) := by omega
  simp only [runPseudo, expand, drawimgActions, if_neg hsize]

theorem runPseudo_drawimg_tooLarge (mono : Nat → BitVec 1) (s : State) (img : Image) (tx ty : Nat) (cx cy : Bool)
    (h : img.width > s.params.width ∨ img.height > s.params.height) :
    runPseudo mono (.drawimg img tx ty cx cy) s
      = .next { state := s, error := some .imageTooLarge, bytes := [] } := by
  simp only [runPseudo, expand, drawimgActions, if_pos h]

theorem center_fits {size n : Nat} (h : n ≤ size) : size / 2 - n / 2 + n ≤ size := by omega

/-- Settles O57: the size check, and where the image fits its pixels are all of the display. -/
theorem drawimgDrawsTheImage : Obligations.DrawimgDrawsTheImage := by
  unfold Obligations.DrawimgDrawsTheImage
  intro mono s img tx ty cx cy hlegal _ x0 y0
  refine ⟨runPseudo_drawimg_tooLarge mono s img tx ty cx cy, fun hwidth hheight => ⟨fun hcx => ?_, fun hcy => ?_,
    fun hfitsx hfitsy => ?_⟩⟩
  · simp only [x0, if_pos hcx]
    exact center_fits hwidth
  · simp only [y0, if_pos hcy]
    exact center_fits hheight
  · have hin : ∀ q ∈ imagePixels img x0 y0, InDisplay s.params q := fun q hq => by
      obtain ⟨-, hx, -, hy⟩ := mem_imagePixels.mp hq
      exact ⟨hx.trans_le hfitsx, hy.trans_le hfitsy⟩
    obtain ⟨r, hr, h0, hdrawn⟩ := runActions_drawActions hlegal (imagePen mono img x0 y0) hin
    rw [← imageActions_eq, ← runPseudo_drawimg mono s img tx ty cx cy hwidth hheight] at hr
    exact ⟨r, hr, h0, fun x y hx hy => hdrawn.pixel_eq hx hy mem_imagePixels⟩

end Sys2Proof.Machine
end

section
/-! DUMP (R125): the bytes it reads, and the places of its text's characters. -/

namespace Sys2Proof.Machine

/-! ### The bytes -/

/-- A READB of the map returns its byte, and the host goes on with FB as it was. -/
theorem runActions_readb {s : State} {j : BitVec 16} (h : j.toNat < s.params.size) :
    ∃ t, t.params = s.params ∧ t.fb = s.fb ∧ ∀ rest, runActions (.command (.readb j) :: rest) s
      = andThen (runActions rest t) fun r => .next (r.prepend [Memory.read s.fb j.toNat]) := by
  have hexec := exec_of_effect (effect_readb_inside h s.fb s.result)
  refine ⟨((s.done s.fb ((Memory.read s.fb j.toNat).setWidth 32)).afterRead 1).afterRead 0, rfl, rfl, fun rest => ?_⟩
  rw [runActions_of_succeeded rfl hexec rfl, taken, State.afterRead_result, State.done_result, setWidth_byte_low]

theorem runActions_readbs {s : State} (hsize : s.params.size ≤ 2 ^ 16) {is : List Nat}
    (his : ∀ i ∈ is, i < s.params.size) :
    ∃ r, runActions (is.map fun i => .command (.readb (BitVec.ofNat 16 i))) s = .next r ∧ r.error = none ∧
      r.state.fb = s.fb ∧ r.bytes = is.map (Memory.read s.fb) := by
  induction is generalizing s with
  | nil => exact ⟨_, rfl, rfl, rfl, rfl⟩
  | cons i is ih =>
    obtain ⟨hi, his⟩ := List.forall_mem_cons.mp his
    have hfield := toNat_ofNat_field (hi.trans_le hsize)
    obtain ⟨t, hparams, hfb, hrun⟩ := runActions_readb (s := s) (hfield ▸ hi)
    obtain ⟨r, hr, h0, hrfb, hbytes⟩ := ih (s := t) (hparams ▸ hsize) (hparams ▸ his)
    rw [hfb] at hrfb hbytes
    refine ⟨r.prepend [Memory.read s.fb i], ?_, h0, hrfb, congrArg (Memory.read s.fb i :: ·) hbytes⟩
    rw [List.map_cons, hrun, hfield]
    exact andThen_eq_next.mpr ⟨r, hr, rfl⟩

/-! ### The text -/

/-- Place `i` of block `k`, where every block has `n` places. -/
theorem getElem?_flatMap_of_length {α β : Type} {l : List α} {f : α → List β} {n : Nat}
    (hf : ∀ a ∈ l, (f a).length = n) (k : Nat) {i : Nat} (hi : i < n) :
    (l.flatMap f)[k * n + i]? = l[k]?.bind fun a => (f a)[i]? := by
  induction l generalizing k with
  | nil => rfl
  | cons a l ih =>
    obtain ⟨ha, hl⟩ := List.forall_mem_cons.mp hf
    rw [List.flatMap_cons]
    cases k with
    | zero => rw [Nat.zero_mul, Nat.zero_add, List.getElem?_append_left (ha ▸ hi)]; rfl
    | succ k =>
      have hplace : (k + 1) * n + i = (f a).length + (k * n + i) := by rw [ha, Nat.succ_mul]; omega
      rw [hplace, List.getElem?_append_right (Nat.le_add_right _ _), Nat.add_sub_cancel_left, ih hl,
        List.getElem?_cons_succ]

section Text

variable (p : Params) (bytes : List Byte) (unset set : Char)

theorem length_dumpLine (g b : Nat) : (dumpLine p bytes unset set g b).length = p.width + 1 := by simp [dumpLine]

/-- The eight lines of a page, bit 7 first. -/
def dumpPage (g : Nat) : List Char := [7, 6, 5, 4, 3, 2, 1, 0].flatMap (dumpLine p bytes unset set g)

theorem dumpText_eq : dumpText p bytes unset set = (List.range p.pages).flatMap (dumpPage p bytes unset set) := rfl

theorem length_dumpPage (g : Nat) : (dumpPage p bytes unset set g).length = 8 * (p.width + 1) := by
  simp only [dumpPage, List.length_flatMap, length_dumpLine, List.map_const', List.sum_replicate, List.length_cons,
    List.length_nil, smul_eq_mul]

theorem length_dumpText : (dumpText p bytes unset set).length = p.height * (p.width + 1) := by
  simp only [dumpText_eq, List.length_flatMap, length_dumpPage, List.map_const', List.sum_replicate,
    List.length_range, smul_eq_mul]
  exact (Nat.mul_left_comm _ _ _).trans (Nat.mul_assoc _ _ _).symm

theorem getElem?_bits {k : Nat} (hk : k < 8) : [7, 6, 5, 4, 3, 2, 1, 0][k]? = some (7 - k) := by
  revert k; decide

/-- Line `y` of the text is that of its page and bit (R42, R125). -/
theorem getElem?_dumpText {y i : Nat} (hy : y < p.height) (hi : i < p.width + 1) :
    (dumpText p bytes unset set)[y * (p.width + 1) + i]? = (dumpLine p bytes unset set (y / 8) (pixelBit y))[i]? := by
  have hpage : y / 8 < p.pages := Nat.div_lt_of_lt_mul hy
  have hbit : y % 8 < 8 := Nat.mod_lt y (by decide)
  have hplace : y * (p.width + 1) + i = y / 8 * (8 * (p.width + 1)) + (y % 8 * (p.width + 1) + i) := by
    rw [← Nat.add_assoc, ← Nat.mul_assoc, ← Nat.add_mul, Nat.div_add_mod']
  have hinPage : y % 8 * (p.width + 1) + i < 8 * (p.width + 1) := by
    have hlines := Nat.mul_le_mul_right (p.width + 1) (Nat.succ_le_of_lt hbit)
    rw [Nat.succ_mul] at hlines
    omega
  rw [hplace, dumpText_eq, getElem?_flatMap_of_length (fun g _ => length_dumpPage p bytes unset set g) _ hinPage,
    List.getElem?_range hpage, Option.bind_some, dumpPage,
    getElem?_flatMap_of_length (fun b _ => length_dumpLine p bytes unset set (y / 8) b) _ hi, getElem?_bits hbit,
    Option.bind_some]

theorem getElem?_dumpLine_column (g b : Nat) {x : Nat} (hx : x < p.width) :
    (dumpLine p bytes unset set g b)[x]?
      = some (if (bytes.getD (g * p.columns + x) 0).getLsbD b then set else unset) := by
  rw [dumpLine, List.getElem?_append_left (by simpa using hx), List.getElem?_map, List.getElem?_range hx]
  rfl

theorem getElem?_dumpLine_newline (g b : Nat) : (dumpLine p bytes unset set g b)[p.width]? = some '\n' := by
  rw [dumpLine, List.getElem?_append_right (by simp)]
  simp

end Text

/-- Settles O58: the bytes by the loop over READB, a character by its line's page and bit. -/
theorem dumpShowsEveryPixel : Obligations.DumpShowsEveryPixel := by
  unfold Obligations.DumpShowsEveryPixel
  intro mono s unset set hlegal
  obtain ⟨r, hr, h0, hfb, hbytes⟩ := runActions_readbs (s := s) (is := List.range s.params.size)
    (size_le_of_legal hlegal) fun i => List.mem_range.mp
  refine ⟨r, hr, h0, hfb, hbytes, length_dumpText s.params r.bytes unset set, fun y hy => ⟨fun x hx => ?_, ?_⟩⟩
  · have hidx : pixelIndex s.params x y < s.params.size := pixelIndex_lt_size hx hy
    have hbyte : r.bytes.getD (pixelIndex s.params x y) 0 = Memory.read s.fb (pixelIndex s.params x y) := by
      rw [hbytes, List.getD_eq_getElem _ _ (by simpa using hidx), List.getElem_map, List.getElem_range]
    rw [getElem?_dumpText _ _ _ _ hy (hx.trans (Nat.lt_succ_self _)), getElem?_dumpLine_column _ _ _ _ _ _ hx, hbyte]
    rfl
  · rw [getElem?_dumpText _ _ _ _ hy (Nat.lt_succ_self _), getElem?_dumpLine_newline]

end Sys2Proof.Machine
end

section
/-! STRIPR, STRIPL, PAGER and PAGEL (R126, R127): one rotation of a row whose descriptor fits the fields. -/

namespace Sys2Proof.Machine

/-! ### The command -/

/-- RotR or RotL, by the direction. -/
def rotation (right : Bool) : List Byte → Nat → List Byte := if right then rotR else rotL

/-- How far a rotation by `n` moves the ring toward higher index. -/
def rotationPlaces (right : Bool) (n : Nat) : Int := if right then n else -n

/-- ROTR or ROTL of the row `d`, by the direction. -/
def rotationInstr (right : Bool) (d : RowDesc) (steps : BitVec 3) : Instr :=
  if right then .rotr (BitVec.ofNat 16 d.base) (BitVec.ofNat 16 d.stride) (BitVec.ofNat 16 d.len) steps
  else .rotl (BitVec.ofNat 16 d.base) (BitVec.ofNat 16 d.stride) (BitVec.ofNat 16 d.len) steps

theorem length_rotation (right : Bool) (r : List Byte) (n : Nat) : (rotation right r n).length = r.length := by
  cases right with
  | true => exact length_rotR r n
  | false => exact length_rotL r n

theorem rotation_moves (right : Bool) (r : List Byte) {n : Nat} (hn : n ≤ 8) :
    RingMoves (rotationPlaces right n) r (rotation right r n) := by
  cases right with
  | true => exact rotR_moves r hn
  | false => exact rotL_moves r hn

theorem rotationInstr_wellFormed (right : Bool) (d : RowDesc) (steps : BitVec 3) :
    (rotationInstr right d steps).wellFormed = true := by
  cases right <;> rfl

theorem rotationAction_of_fits {d : RowDesc} (h : d.base < 2 ^ 16) (right : Bool) (steps : BitVec 3) :
    rotationAction right d steps = .command (rotationInstr right d steps) := if_pos h

theorem rotationAction_of_not_fits {d : RowDesc} (h : ¬ d.base < 2 ^ 16) (right : Bool) (steps : BitVec 3) :
    rotationAction right d steps = .unfit := if_neg h

theorem exec_rotationInstr {d : RowDesc} (hbase : d.base < 2 ^ 16) (hstride : d.stride < 2 ^ 16) (hlen : d.len < 2 ^ 16)
    (right : Bool) (steps : BitVec 3) (s : State) :
    exec (rotationInstr right d steps) s = rotateRow (rotation right) d steps.toNat s := by
  cases right with
  | true =>
    simp only [rotationInstr, if_true, exec, execRotr, toNat_ofNat_field hbase, toNat_ofNat_field hstride,
      toNat_ofNat_field hlen]
    rfl
  | false =>
    simp only [rotationInstr, Bool.false_eq_true, if_false, exec, execRotl, toNat_ofNat_field hbase,
      toNat_ofNat_field hstride, toNat_ofNat_field hlen]
    rfl

/-! ### The host's rotation of a row -/

section Row

variable {s : State} {d : RowDesc} {steps : BitVec 3} (hstride : d.stride < 2 ^ 16) (hlen : d.len < 2 ^ 16)
  (hgood : ¬ (steps.toNat = 0 ∨ d.len = 0 ∨ (2 ≤ d.len ∧ d.stride = 0))) (right : Bool)
include hstride hlen hgood

/-- A row of the map is rotated and every other byte stays. -/
theorem runActions_rotation_inside (hsize : s.params.size ≤ 2 ^ 16)
    (hin : d.base + (d.len - 1) * d.stride < s.params.size) :
    ∃ r, runActions [rotationAction right d steps] s = .next r ∧ r.error = none ∧
      readRow d r.state.fb = rotation right (readRow d s.fb) steps.toNat ∧
      FbSameOutside (fun a => ∃ k, k < d.len ∧ a = d.base + k * d.stride) s r.state := by
  have hbase : d.base < 2 ^ 16 := by omega
  obtain ⟨-, -, hrotates⟩ := rotatesTheRow (length_rotation right) d steps.toNat s
  obtain ⟨t, ht, hrow, hout, -, h0, -⟩ := hrotates hgood (Nat.not_le.mpr hin)
  rw [← exec_rotationInstr hbase hstride hlen, ← transact_encode (rotationInstr_wellFormed right d steps)] at ht
  obtain ⟨r, hr, hfb, -, -, hnone, -⟩ := runActions_singleton ht
  rw [← hfb] at hrow
  rw [rotationAction_of_fits hbase]
  exact ⟨r, hr, hnone h0, hrow, fun a ha => (congrArg (Memory.read · a) hfb).trans (hout a ha)⟩

/-- A row that leaves the map is E_RANGE, whether or not its base fits its field. -/
theorem runActions_rotation_outside (hout : d.base + (d.len - 1) * d.stride ≥ s.params.size) :
    HostStops .range s (runActions [rotationAction right d steps] s) := by
  by_cases hbase : d.base < 2 ^ 16
  · obtain ⟨-, hrange, -⟩ := rotatesTheRow (length_rotation right) d steps.toNat s
    rw [rotationAction_of_fits hbase]
    refine runActions_of_failedWith (rotationInstr_wellFormed right d steps) ?_ []
    rw [exec_rotationInstr hbase hstride hlen]
    exact hrange hgood hout
  · rw [rotationAction_of_not_fits hbase]
    exact ⟨_, rfl, rfl, rfl, rfl⟩

end Row

theorem steps_toNat_ne_zero {steps : BitVec 3} (h : steps ≠ 0) : steps.toNat ≠ 0 := by
  simpa [BitVec.toNat_eq] using h

/-! ### Column strips -/

/-- A column strip passes the argument checks (R45). -/
theorem columnStrip_good {p : Params} (hp : p.legal) {steps : BitVec 3} (hsteps : steps ≠ 0) (c : Nat) :
    ¬ (steps.toNat = 0 ∨ (columnStrip p c).len = 0 ∨ (2 ≤ (columnStrip p c).len ∧ (columnStrip p c).stride = 0)) := by
  obtain ⟨hpages, -, hcolumns, -⟩ := hp
  have hpos := steps_toNat_ne_zero hsteps
  simp only [columnStrip]
  omega

theorem columnStrip_last {p : Params} (hp : p.legal) (c : Nat) :
    (columnStrip p c).base + ((columnStrip p c).len - 1) * (columnStrip p c).stride + p.columns = c + p.size := by
  obtain ⟨n, hn⟩ := Nat.exists_eq_add_of_le' hp.1
  simp only [columnStrip, Params.size, hn, Nat.add_sub_cancel, Nat.succ_mul]
  omega

/-- Where one column's ring moves and no other byte changes, its pixels move by as many rows (R42, R45). -/
theorem pixel_of_columnStrip_moves {p : Params} {c : Nat} (hc : c < p.columns) {m m' : Memory} {q : Int}
    (hring : RingMoves q (readRow (columnStrip p c) m) (readRow (columnStrip p c) m'))
    (hout : ∀ a, (¬ ∃ k, k < p.pages ∧ a = c + k * p.columns) → Memory.read m' a = Memory.read m a) {x y : Nat}
    (hx : x < p.width) (hy : y < p.height) :
    Memory.pixel p m' x (if x = c then ((y + q) % (p.height : Int)).toNat else y) = Memory.pixel p m x y := by
  by_cases hxc : x = c
  · subst hxc
    have hmoved := hring.ringBit_eq (j := y) (by rwa [length_readRow])
    have hlen : 8 * ((readRow (columnStrip p x) m).length : Int) = (p.height : Int) := by rw [length_readRow]; rfl
    have hheight : (0 : Int) < p.height := by omega
    have hnonneg := Int.emod_nonneg (y + q) hheight.ne'
    have hlt := Int.emod_lt_of_pos (y + q) hheight
    rw [if_pos rfl]
    rwa [hlen, ringBit_columnStrip _ hy, ringBit_columnStrip _ (by omega)] at hmoved
  · have hbyte : Memory.read m' (pixelIndex p x y) = Memory.read m (pixelIndex p x y) := hout _ fun ⟨k, _, hk⟩ =>
      columnStrips_disjoint hx hc hxc (y / 8) k ((columnStrip_index p x (y / 8)).trans hk)
    rw [if_neg hxc, Memory.pixel, hbyte]
    rfl

/-- STRIPR and STRIPL in the buffer (R126). -/
theorem runActions_strip_inside {s : State} (hp : s.params.legal) {c : Nat} (hc : c < s.params.columns)
    {steps : BitVec 3} (hsteps : steps ≠ 0) (right : Bool) :
    ∃ r, runActions [rotationAction right (columnStrip s.params c) steps] s = .next r ∧ r.error = none ∧
      ∀ x y, x < s.params.width → y < s.params.height →
        Memory.pixel s.params r.state.fb x
            (if x = c then ((y + rotationPlaces right steps.toNat) % (s.params.height : Int)).toNat else y)
          = Memory.pixel s.params s.fb x y := by
  have hlast := columnStrip_last hp c
  obtain ⟨r, hr, h0, hrow, hout⟩ := runActions_rotation_inside (d := columnStrip s.params c)
    (show s.params.columns < 2 ^ 16 by omega) (show s.params.pages < 2 ^ 16 by omega) (columnStrip_good hp hsteps c)
    right (size_le_of_legal hp) (by omega)
  have hring := rotation_moves right (readRow (columnStrip s.params c) s.fb) (show steps.toNat ≤ 8 by omega)
  rw [← hrow] at hring
  exact ⟨r, hr, h0, fun x y hx hy => pixel_of_columnStrip_moves hc hring hout hx hy⟩

theorem runActions_strip_outside {s : State} (hp : s.params.legal) {c : Nat} (hc : s.params.columns ≤ c)
    {steps : BitVec 3} (hsteps : steps ≠ 0) (right : Bool) :
    HostStops .range s (runActions [rotationAction right (columnStrip s.params c) steps] s) := by
  have hlast := columnStrip_last hp c
  exact runActions_rotation_outside (show s.params.columns < 2 ^ 16 by omega) (show s.params.pages < 2 ^ 16 by omega)
    (columnStrip_good hp hsteps c) right (by omega)

/-- Settles O59: one rotation of the column strip, and a pixel is a ring bit of its strip. -/
theorem stripMovesOneColumn : Obligations.StripMovesOneColumn := by
  unfold Obligations.StripMovesOneColumn
  intro mono s c steps hp hsteps
  refine ⟨fun hc => ?_, fun hc => ?_⟩
  · obtain ⟨r, hr, hr0, hright⟩ := runActions_strip_inside hp hc hsteps true
    obtain ⟨l, hl, hl0, hleft⟩ := runActions_strip_inside hp hc hsteps false
    refine ⟨r, l, hr, hr0, hl, hl0, fun x y hx hy => ⟨?_, hleft x y hx hy⟩⟩
    have hplace : (((y : Int) + rotationPlaces true steps.toNat) % (s.params.height : Int)).toNat
        = (y + steps.toNat) % s.params.height := Int.toNat_natCast ((y + steps.toNat) % s.params.height)
    rw [← hplace]
    exact hright x y hx hy
  · obtain ⟨r, hr, hrerr, hrfb, -⟩ := runActions_strip_outside hp hc hsteps true
    obtain ⟨l, hl, hlerr, hlfb, -⟩ := runActions_strip_outside hp hc hsteps false
    exact ⟨r, l, hr, hrerr, hrfb, hl, hlerr, hlfb⟩

/-! ### Page slices -/

/-- A page slice passes the argument checks (R46). -/
theorem pageSlice_good {p : Params} (hp : p.legal) {steps : BitVec 3} (hsteps : steps ≠ 0) (g : Nat) :
    ¬ (steps.toNat = 0 ∨ (pageSlice p g).len = 0 ∨ (2 ≤ (pageSlice p g).len ∧ (pageSlice p g).stride = 0)) := by
  obtain ⟨-, -, hcolumns, -⟩ := hp
  have hpos := steps_toNat_ne_zero hsteps
  simp only [pageSlice]
  omega

theorem pageSlice_last {p : Params} (hp : p.legal) (g : Nat) :
    (pageSlice p g).base + ((pageSlice p g).len - 1) * (pageSlice p g).stride + 1 = (g + 1) * p.columns := by
  obtain ⟨-, -, hcolumns, -⟩ := hp
  simp only [pageSlice, Nat.succ_mul]
  omega

/-- PAGER and PAGEL in the buffer (R127). -/
theorem runActions_page_inside {s : State} (hp : s.params.legal) {g : Nat} (hg : g < s.params.pages)
    {steps : BitVec 3} (hsteps : steps ≠ 0) (right : Bool) :
    ∃ r, runActions [rotationAction right (pageSlice s.params g) steps] s = .next r ∧ r.error = none ∧
      readRow (pageSlice s.params g) r.state.fb
        = rotation right (readRow (pageSlice s.params g) s.fb) steps.toNat ∧
      FbSameOutside (fun a => g * s.params.columns ≤ a ∧ a < (g + 1) * s.params.columns) s r.state := by
  have hlast := pageSlice_last hp g
  have hend : (g + 1) * s.params.columns ≤ s.params.size := Nat.mul_le_mul_right _ hg
  obtain ⟨r, hr, h0, hrow, hout⟩ := runActions_rotation_inside (d := pageSlice s.params g)
    (show 1 < 2 ^ 16 by decide) (show s.params.columns < 2 ^ 16 by omega) (pageSlice_good hp hsteps g)
    right (size_le_of_legal hp) (by omega)
  refine ⟨r, hr, h0, hrow, fun a ha => hout a ?_⟩
  rintro ⟨k, hk, rfl⟩
  simp only [pageSlice, Nat.succ_mul] at hk ha
  omega

theorem runActions_page_outside {s : State} (hp : s.params.legal) {g : Nat} (hg : s.params.pages ≤ g)
    {steps : BitVec 3} (hsteps : steps ≠ 0) (right : Bool) :
    HostStops .range s (runActions [rotationAction right (pageSlice s.params g) steps] s) := by
  have hlast := pageSlice_last hp g
  have hend : s.params.size ≤ g * s.params.columns := Nat.mul_le_mul_right _ hg
  rw [Nat.succ_mul] at hlast
  exact runActions_rotation_outside (show 1 < 2 ^ 16 by decide) (show s.params.columns < 2 ^ 16 by omega)
    (pageSlice_good hp hsteps g) right (by omega)

/-- Settles O60: one rotation of the page slice, whose bytes are those of its page. -/
theorem pageSliceRotatesAsOneRing : Obligations.PageSliceRotatesAsOneRing := by
  unfold Obligations.PageSliceRotatesAsOneRing
  intro mono s g steps hp hsteps
  refine ⟨fun hg => ?_, fun hg => ?_⟩
  · obtain ⟨r, hr, hr0, hrrow, hrout⟩ := runActions_page_inside hp hg hsteps true
    obtain ⟨l, hl, hl0, hlrow, hlout⟩ := runActions_page_inside hp hg hsteps false
    exact ⟨r, l, hr, hr0, hl, hl0, hrrow, hlrow, hrout, hlout⟩
  · obtain ⟨r, hr, hrerr, hrfb, -⟩ := runActions_page_outside hp hg hsteps true
    obtain ⟨l, hl, hlerr, hlfb, -⟩ := runActions_page_outside hp hg hsteps false
    exact ⟨r, l, hr, hrerr, hrfb, hl, hlerr, hlfb⟩

end Sys2Proof.Machine
end

section
/-! The statements about errors (R140 to R143): what a failed and a successful command leave, and the code of the first
check that fails. -/

namespace Sys2Proof.Machine

/-! ### The two ends of a command -/

/-- `raise Error(e)` writes STATUS and nothing else (R142). -/
theorem withStatus_failed_failedWith (e : ErrCode) (s : State) : FailedWith e s (s.withStatus (Status.failed e)) :=
  ⟨rfl, rfl, rfl, rfl, rfl, rfl, rfl⟩

/-- Settles O22: LAST_ERR tells that the word's effect was an error, and every transaction completes. -/
theorem failedCommandsChangeOnlyStatus : Obligations.FailedCommandsChangeOnlyStatus := by
  unfold Obligations.FailedCommandsChangeOnlyStatus
  intro s t w ht hfailed
  rw [transact_issue_eq_finish] at ht
  obtain ⟨e, -, rfl⟩ := State.finish_failed ht hfailed
  exact ⟨⟨e, withStatus_failed_failedWith e s⟩, fun w' => transact_completes (.issue w') _⟩

/-- Settles O23: what does not end with the error effect has an effect that succeeds, and only a command's word has
one. -/
theorem successfulCommandsKeepAnyErr : Obligations.SuccessfulCommandsKeepAnyErr := by
  unfold Obligations.SuccessfulCommandsKeepAnyErr
  intro s t w ht hnot
  rw [transact_issue_eq_finish] at ht
  rcases State.finish_cases ht with ⟨e, -, rfl⟩ | ⟨m, r, heff, rfl⟩
  · exact absurd ⟨e, withStatus_failed_failedWith e s⟩ hnot
  · obtain ⟨i, hi, hieff⟩ := wordEffect_ok heff
    exact ⟨rfl, rfl, i, hi, exec_of_effect hieff⟩

/-! ### The code an effect leaves in LAST_ERR -/

/-- The code of R140 for what a check or an effect answers; 0 for a success. -/
def errorCode {α : Type} : Except ErrCode α → BitVec 4
  | .error e => e.code
  | .ok _ => 0

theorem State.finish_lastErr {s t : State} {x : Except ErrCode (Memory × RegWord)} (h : s.finish x = .next t) :
    t.status.lastErr = errorCode x := by
  rcases State.finish_cases h with ⟨e, rfl, rfl⟩ | ⟨m, r, rfl, rfl⟩
  · rfl
  · rfl

theorem errorCode_map {α β : Type} (f : α → β) (x : Except ErrCode α) : errorCode (x.map f) = errorCode x := by
  cases x <;> rfl

theorem errorCode_ite {α : Type} (c : Prop) [Decidable c] (x y : Except ErrCode α) :
    errorCode (if c then x else y) = if c then errorCode x else errorCode y :=
  apply_ite errorCode c x y

/-- The code of a translation: the bounds check of the mode, then in LEGACY_INCLUSIVE mode the check of the index (R43,
R44). -/
theorem errorCode_translatePixel (p : Params) (x y : Nat) :
    errorCode (translatePixel p x y)
      = if p.boundaryMode = .strict then if x ≥ p.width ∨ y ≥ p.height then 2 else 0
        else if x > p.width ∨ y > p.height then 2
        else if pixelIndex p x y ≥ p.size then 4
        else 0 := by
  unfold translatePixel
  cases p.boundaryMode with
  | strict => exact errorCode_ite _ _ _
  | legacyInclusive =>
    simp only [errorCode_ite, reduceCtorEq, if_false]
    rfl

/-- The code of a check against SIZE (R93, R94). -/
theorem errorCode_sizeCheck {α : Type} (i : BitVec 16) (size : Nat) (a : α) :
    errorCode (if i.toNat ≥ size then .error .range else .ok a) = if i.toNat ≥ size then 2 else 0 :=
  errorCode_ite _ _ _

/-- The code of a rotation: its arguments in their order, then the range (R83, R84, R141). -/
theorem errorCode_rotationEffect (rot : List Byte → Nat → List Byte) (base stride len : BitVec 16) (steps : BitVec 3)
    (p : Params) (m : Memory) (r : RegWord) :
    errorCode (rotationEffect rot ⟨base.toNat, stride.toNat, len.toNat⟩ steps.toNat p m r)
      = if steps = 0 then 3
        else if len = 0 then 3
        else if len.toNat ≥ 2 ∧ stride = 0 then 3
        else if base.toNat + (len.toNat - 1) * stride.toNat ≥ p.size then 2
        else 0 := by
  simp only [BitVec.toNat_eq, BitVec.ofNat_eq_ofNat, BitVec.toNat_ofNat, Nat.zero_mod]
  unfold rotationEffect rotationError
  split_ifs <;> rfl

/-- Settles O24: LAST_ERR is the code of the word's effect, which is that of the command's checks. -/
theorem firstErrorIsReported : Obligations.FirstErrorIsReported := by
  unfold Obligations.FirstErrorIsReported
  intro s t w ht
  rw [transact_issue_eq_finish] at ht
  rw [State.finish_lastErr ht, wordEffect]
  cases decode w with
  | error e => rfl
  | ok i =>
    cases i with
    | clear => rfl
    | setpx x y pen => exact (errorCode_map _ _).trans (errorCode_translatePixel _ _ _)
    | xlate x y => exact (errorCode_map _ _).trans (errorCode_translatePixel _ _ _)
    | readb j => exact errorCode_sizeCheck _ _ _
    | writeb j v => exact errorCode_sizeCheck _ _ _
    | rotr base stride len steps => exact errorCode_rotationEffect _ _ _ _ _ _ _ _
    | rotl base stride len steps => exact errorCode_rotationEffect _ _ _ _ _ _ _ _
    | vscroll n => rfl
    | hscroll n => rfl

end Sys2Proof.Machine
end

section
/-! Reset (R160, R161), and runs (R167): the state a run ends in as a fold over its transactions, what the run adds to
the host's replies, and what ANY_ERR at its end tells. -/

namespace Sys2Proof.Machine

/-! ### Reset -/

/-- Settles O2: Reset answers `resetEngine`, whose fields are R160's values, and every transaction completes. -/
theorem resetTransactionClearsTheEngine : Obligations.ResetTransactionClearsTheEngine := by
  unfold Obligations.ResetTransactionClearsTheEngine
  intro s
  exact ⟨resetEngine s, rfl, Memory.read_zero, rfl, rfl, rfl, rfl, fun w => transact_completes (.issue w) _⟩

/-- Reset depends only on what no command writes (R160). -/
theorem resetEngine_of_sameOutside {s t : State} (h : SameOutside s t) : resetEngine t = resetEngine s := by
  obtain ⟨hparams, hpending, hreplies⟩ := h
  simp only [resetEngine, State.withFb, State.withResult, State.withStatus, hparams, hpending, hreplies]

theorem transact_issue_sameOutside {w : CommandWord} {s t : State} (h : transact (.issue w) s = .next t) :
    SameOutside s t := by
  rw [transact_issue_eq_finish] at h
  rcases State.finish_cases h with ⟨e, -, rfl⟩ | ⟨m, r, -, rfl⟩
  · exact ⟨rfl, rfl, rfl⟩
  · exact ⟨rfl, rfl, rfl⟩

/-- Settles O3: Reset depends only on what no command writes. -/
theorem resetErasesTheCommandBeforeIt : Obligations.ResetErasesTheCommandBeforeIt := by
  unfold Obligations.ResetErasesTheCommandBeforeIt
  intro s t w h
  exact congrArg Host.Outcome.next (resetEngine_of_sameOutside (transact_issue_sameOutside h))

/-! ### The state after a transaction -/

/-- The state a transaction leaves. -/
def State.afterTransaction (s : State) (tr : Transaction) : State :=
  match transact tr s with
  | .next t => t
  | _ => s

theorem afterTransaction_of_transact {tr : Transaction} {s t : State} (h : transact tr s = .next t) :
    s.afterTransaction tr = t := by
  simp only [State.afterTransaction, h]

theorem transact_eq_afterTransaction (tr : Transaction) (s : State) :
    transact tr s = .next (s.afterTransaction tr) := by
  obtain ⟨t, h⟩ := transact_completes tr s
  rw [afterTransaction_of_transact h, h]

theorem State.afterTransaction_read (s : State) (sel : BitVec 2) :
    s.afterTransaction (.read sel) = s.afterRead sel := rfl

/-- No transaction uses what the host has lined up after it (R29). -/
theorem transact_withPending (tr : Transaction) (s : State) (ts : List Transaction) :
    transact tr (s.withPending ts) = .next ((s.afterTransaction tr).withPending ts) := by
  cases tr with
  | issue w =>
    simp only [State.afterTransaction, transact_issue_eq_finish, State.withPending_params, State.withPending_fb,
      State.withPending_result]
    cases wordEffect s.params s.fb s.result w with
    | error e => rfl
    | ok a => rfl
  | read sel => rfl
  | reset => rfl

/-! ### Runs -/

/-- The state that the transactions `ts` leave, performed one after another. -/
def State.after (s : State) (ts : List Transaction) : State := ts.foldl State.afterTransaction s

theorem State.after_cons (s : State) (tr : Transaction) (ts : List Transaction) :
    s.after (tr :: ts) = (s.afterTransaction tr).after ts := rfl

theorem State.after_append (s : State) (pre post : List Transaction) :
    s.after (pre ++ post) = (s.after pre).after post :=
  List.foldl_append

/-- One step for each transaction that is lined up performs them all (R55). -/
theorem core_run_withPending (ts : List Transaction) (s : State) :
    Sys2Proof.core.run ts.length (s.withPending ts) = .next ((s.after ts).withPending []) := by
  induction ts generalizing s with
  | nil => rfl
  | cons tr ts ih =>
    have hstep : Sys2Proof.core.step (s.withPending (tr :: ts)) = .next ((s.afterTransaction tr).withPending ts) :=
      (step_of_pending (s := s.withPending (tr :: ts)) rfl).trans (transact_withPending tr s ts)
    simp only [List.length_cons, Host.Core.run, hstep, ih, State.after_cons]

/-- A run performs its transactions from the state with no replies, and leaves none lined up (R167). -/
theorem runOf_eq_after (ts : List Transaction) (s : State) :
    runOf ts s = .next (((s.withReplies []).after ts).withPending []) :=
  core_run_withPending ts (s.withReplies [])

/-! ### The replies of a run -/

/-- What a transaction adds to the host's replies: a Read the register's value, the others nothing (R29). -/
def State.newReplies (s : State) : Transaction → List RegWord
  | .read sel => [readRegister sel s]
  | _ => []

theorem State.afterTransaction_replies (s : State) (tr : Transaction) :
    (s.afterTransaction tr).replies = s.replies ++ s.newReplies tr := by
  cases tr with
  | issue w =>
    obtain ⟨-, -, hreplies⟩ := transact_issue_sameOutside (transact_eq_afterTransaction (.issue w) s)
    exact hreplies.trans (List.append_nil _).symm
  | read sel => rfl
  | reset => exact (List.append_nil _).symm

/-- A run keeps the replies it has, in their places. -/
theorem replies_prefix_after (ts : List Transaction) (s : State) : s.replies <+: (s.after ts).replies := by
  induction ts generalizing s with
  | nil => exact List.prefix_rfl
  | cons tr ts ih =>
    have hfirst : s.replies <+: (s.afterTransaction tr).replies :=
      State.afterTransaction_replies s tr ▸ List.prefix_append _ _
    exact hfirst.trans (ih _)

/-- The host's Reads among its transactions (R29). -/
def Transaction.isRead : Transaction → Bool
  | .read _ => true
  | _ => false

/-- A run adds one reply for each of its Reads. -/
theorem length_replies_after (ts : List Transaction) (s : State) :
    (s.after ts).replies.length = s.replies.length + ts.countP Transaction.isRead := by
  induction ts generalizing s with
  | nil => rfl
  | cons tr ts ih =>
    rw [State.after_cons, ih, State.afterTransaction_replies, List.length_append, List.countP_cons, Nat.add_assoc]
    cases tr with
    | read sel => simp [State.newReplies, Transaction.isRead, Nat.add_comm]
    | _ => simp [State.newReplies, Transaction.isRead]

/-- The reply of a Read in a run is the register's value in the state reached before it. -/
theorem replies_after_read (pre : List Transaction) (sel : BitVec 2) (post : List Transaction) (s : State) :
    (s.after (pre ++ .read sel :: post)).replies[(s.after pre).replies.length]?
      = some (readRegister sel (s.after pre)) := by
  rw [State.after_append, State.after_cons]
  obtain ⟨later, hlater⟩ := replies_prefix_after post ((s.after pre).afterTransaction (.read sel))
  rw [← hlater, State.afterTransaction_replies]
  simp [State.newReplies]

/-- Settles O51: a run is a fold over its transactions that only adds to the replies, one for each Read. -/
theorem runsReturnTheValuesRead : Obligations.RunsReturnTheValuesRead := by
  unfold Obligations.RunsReturnTheValuesRead
  refine fun ts s => ⟨_, runOf_eq_after ts s, rfl, rfl, rfl, ?_, ?_⟩
  · exact (length_replies_after ts (s.withReplies [])).trans (Nat.zero_add _)
  · rintro pre sel post rfl
    exact ⟨_, runOf_eq_after pre s, replies_after_read pre sel post _⟩

/-! ### ANY_ERR at the end of a run -/

/-- After a command ANY_ERR is 0 exactly when it was 0 before and the command did not fail (R142, R143). -/
theorem anyErr_afterTransaction_issue (w : CommandWord) (s : State) :
    (s.afterTransaction (.issue w)).status.anyErr = false ↔
      s.status.anyErr = false ∧ (s.afterTransaction (.issue w)).status.lastErr = 0 := by
  rcases transact_issue_cases w s with ⟨e, h⟩ | ⟨m, r, h⟩
  · rw [afterTransaction_of_transact h]
    simp only [State.withStatus_status, Status.failed_anyErr, Status.failed_lastErr, e.code_ne_zero, and_false,
      Bool.true_eq_false]
  · rw [afterTransaction_of_transact h]
    simp

/-- The commands of a run are its first transaction, if that is one, and those of the rest. -/
theorem forall_issue_cons {P : List Transaction → Prop} {tr : Transaction} {ts : List Transaction} :
    (∀ pre w post, tr :: ts = pre ++ .issue w :: post → P (pre ++ [.issue w])) ↔
      (∀ w, tr = .issue w → P [tr]) ∧
        ∀ pre w post, ts = pre ++ .issue w :: post → P (tr :: (pre ++ [.issue w])) := by
  constructor
  · intro h
    constructor
    · rintro w rfl
      exact h [] w ts rfl
    · rintro pre w post rfl
      exact h (tr :: pre) w post rfl
  · rintro ⟨hfirst, hrest⟩ pre w post h
    rcases List.cons_eq_append_iff.mp h with ⟨rfl, hcons⟩ | ⟨pre, rfl, hts⟩
    · obtain ⟨rfl, -⟩ := List.cons.inj hcons
      exact hfirst w rfl
    · exact hrest pre w post hts

/-- Without Reset, ANY_ERR is 0 at the end exactly when it was 0 at the start and no command failed (R23). -/
theorem anyErr_after (ts : List Transaction) (s : State) (hts : Transaction.reset ∉ ts) :
    (s.after ts).status.anyErr = false ↔
      s.status.anyErr = false ∧
        ∀ pre w post, ts = pre ++ .issue w :: post → (s.after (pre ++ [.issue w])).status.lastErr = 0 := by
  induction ts generalizing s with
  | nil => simp [State.after]
  | cons tr ts ih =>
    obtain ⟨htr, hts⟩ := List.ne_and_not_mem_of_not_mem_cons hts
    rw [forall_issue_cons (P := fun run => (s.after run).status.lastErr = 0), State.after_cons, ih _ hts,
      ← and_assoc]
    refine and_congr_left fun _ => ?_
    cases tr with
    | issue w =>
      rw [anyErr_afterTransaction_issue]
      exact and_congr_right fun _ => ⟨fun h _ _ => h, fun h => h w rfl⟩
    | read sel => simp [State.afterTransaction_read]
    | reset => exact absurd rfl htr

/-- Settles O52: ANY_ERR at the end of a run without Reset tells whether it was set before or a command failed. -/
theorem anyErrTellsWhetherACommandFailed : Obligations.AnyErrTellsWhetherACommandFailed := by
  unfold Obligations.AnyErrTellsWhetherACommandFailed
  intro ts s t hts hs ht
  rw [noCommandFailed, Bool.not_eq_true'] at hs ⊢
  rw [runOf_eq_after, Host.Outcome.next.injEq] at ht
  subst ht
  rw [State.withPending_status, anyErr_after ts _ hts]
  simp [runOf_eq_after, hs]

end Sys2Proof.Machine
end
